-- ==== Sys2Proof/Word.lean ====
section
/-! DEFINITION. The quantities of Jhip8 CORE that the spec treats as bits, and the names of its registers and keys
(00_scope.md R5, R6). -/

namespace Sys2Proof

/-- A memory cell and a general register are 8 bits (R5 `CELL`, `VLEN`). -/
abbrev Byte := BitVec 8

/-- A hexadecimal digit of an instruction word (R6). -/
abbrev Nibble := BitVec 4

/-- The address register and the `nnn` field are 12 bits (R5 `ILEN`, R51). -/
abbrev Addr := BitVec 12

/-- An instruction word is 16 bits (R5 `WORD`), and so is what holds `pc` and a stack slot: `Config.pcLen` says how many of
those bits are used (R5 `PCLEN`). -/
abbrev Word := BitVec 16

/-- A general register `V0` to `VF`, named by its number (R11). -/
abbrev Reg := Fin 16

/-- A key of the input latch, 0 to 15 (R17). -/
abbrev Key := Fin 16

/-- `VF`, the register that doubles as the flag (R12). -/
abbrev vF : Reg := 15

/-- A one-bit result as a register value, 1 or 0 (R12: a flag is written as 0 or 1). -/
def flagByte (b : Bool) : Byte := if b then 1 else 0

end Sys2Proof
end

