-- ==== Sys2Proof/Config.lean ====
section
/-! DEFINITION. The parameters of the hardware that the spec decides or leaves as named alternatives (00_scope.md R5,
92_eei_decisions.md, 93_implementation_defined.md), and the free bytes. -/

namespace Sys2Proof

/-- Which byte of an instruction word lies at the lower address (R34, D2). -/
inductive ByteOrder where
  | highFirst
  | lowFirst
  deriving DecidableEq, Repr

/-- `PCLEN`, the width of `pc` and of a stack slot: the spec's 16 bits, or the 12 that D3 and R87 set against it. -/
inductive PcWidth where
  | sixteen
  | twelve
  deriving DecidableEq, Repr

/-- The width in bits. -/
def PcWidth.bits : PcWidth → Nat
  | .sixteen => 16
  | .twelve => 12

/-- What a CPU store to the font region does (R37, D8): raise `FONT_WRITE`, or land. -/
inductive FontWritePolicy where
  | fault
  | allow
  deriving DecidableEq, Repr

/-- What `Ex9E` and `ExA1` do with an index above 15 (R130, R131, D9). -/
inductive KeyIndexPolicy where
  | fault
  | mask4
  | notPressed
  deriving DecidableEq, Repr

/-- How an instruction that writes the flag treats `VF` as an operand (R103, D11). -/
inductive VfOperandPolicy where
  | sampleFlagResult
  | sequentialText
  | flagLast
  deriving DecidableEq, Repr

/-- The parameters of R5. A machine has one configuration and no step changes it. -/
structure Config where
  /-- `MEM_SIZE`, the number of memory cells (R45, D1). -/
  memSize : Nat
  /-- `FONT`, the 80 glyph bytes (R32, D21). -/
  font : Vector Byte 80
  /-- `FONT_WRITE_POLICY` (D8). -/
  fontWrite : FontWritePolicy
  /-- `KEY_INDEX_POLICY` (D9). -/
  keyIndex : KeyIndexPolicy
  /-- `VF_ALIAS_POLICY` (D11). -/
  vfOperand : VfOperandPolicy
  /-- The byte order of the fetch (R34, D2). -/
  fetchOrder : ByteOrder
  /-- `PCLEN` (D3). -/
  pcLen : PcWidth
  /-- Whether the optional output event `UnknownOpcode(a, w)` is there (R153). -/
  unknownSignal : Bool
  deriving DecidableEq, Repr

namespace Config

/-- The number of font cells, `0x000` to `0x04F` (R31). -/
def fontCells : Nat := 80

/-- The load address and reset value of `pc` (R5 `PROG_BASE`). -/
def progBase : Nat := 0x200

/-- The font table of R32. PRESUMED: the spec takes the byte values from general knowledge (D21), log 6. -/
def defaultFont : Vector Byte 80 := #v[
  0xF0, 0x90, 0x90, 0x90, 0xF0, -- 0
  0x20, 0x60, 0x20, 0x20, 0x70, -- 1
  0xF0, 0x10, 0xF0, 0x80, 0xF0, -- 2
  0xF0, 0x10, 0xF0, 0x10, 0xF0, -- 3
  0x90, 0x90, 0xF0, 0x10, 0x10, -- 4
  0xF0, 0x80, 0xF0, 0x10, 0xF0, -- 5
  0xF0, 0x80, 0xF0, 0x90, 0xF0, -- 6
  0xF0, 0x10, 0x20, 0x40, 0x40, -- 7
  0xF0, 0x90, 0xF0, 0x90, 0xF0, -- 8
  0xF0, 0x90, 0xF0, 0x10, 0xF0, -- 9
  0xF0, 0x90, 0xF0, 0x90, 0x90, -- A
  0xE0, 0x90, 0xE0, 0x90, 0xE0, -- B
  0xF0, 0x80, 0x80, 0x80, 0xF0, -- C
  0xE0, 0x90, 0x90, 0x90, 0xE0, -- D
  0xF0, 0x80, 0xF0, 0x80, 0xF0, -- E
  0xF0, 0x80, 0xF0, 0x80, 0x80] -- F

/-- The values R5 gives the parameters. DESIGN CHOICE of the spec where it marks a decision, log 5; the byte order is
PRESUMED, log 7, and the width of `pc` DESIGN CHOICE of the spec, log 12; that the optional signal is absent is the model's
DESIGN CHOICE, log 15. -/
def spec : Config where
  memSize := 4096
  font := defaultFont
  fontWrite := .fault
  keyIndex := .fault
  vfOperand := .sampleFlagResult
  fetchOrder := .highFirst
  pcLen := .sixteen
  unknownSignal := false

/-- The two capacities the spec allows (R45, D1). -/
abbrev legal (c : Config) : Prop := c.memSize = 4096 ∨ c.memSize = 4095

/-- The byte that the `k`-th draw yields (R7 `draw r : byte`, R101, R134). A free value: nothing constrains it (D13, D17).
DESIGN CHOICE: an uninterpreted constant applied to the count of draws, log 4. -/
opaque freeByte : Nat → Byte

end Config
end Sys2Proof
end

