-- ==== Sys2Proof/Syntax.lean ====
section
/-! DEFINITION. The instructions: one constructor per row of spec/opcode_table.json, the catch-all row among them
(30_encoding.md R55, R57). -/

namespace Sys2Proof

/-- An instruction with its operand fields (R51). A register field names the register by its number; `kk`, `nnn` and `n`
are the unsigned immediates of R53. -/
inductive Instr where
  | cls                              -- 00E0 CLS
  | ret                              -- 00EE RET
  | jp (nnn : Addr)                  -- 1nnn JP nnn
  | call (nnn : Addr)                -- 2nnn CALL nnn
  | seImm (x : Reg) (kk : Byte)      -- 3xkk SE Vx, kk
  | sneImm (x : Reg) (kk : Byte)     -- 4xkk SNE Vx, kk
  | seReg (x y : Reg)                -- 5xy0 SE Vx, Vy
  | ldImm (x : Reg) (kk : Byte)      -- 6xkk LD Vx, kk
  | addImm (x : Reg) (kk : Byte)     -- 7xkk ADD Vx, kk
  | ldReg (x y : Reg)                -- 8xy0 LD Vx, Vy
  | orReg (x y : Reg)                -- 8xy1 OR Vx, Vy
  | andReg (x y : Reg)               -- 8xy2 AND Vx, Vy
  | xorReg (x y : Reg)               -- 8xy3 XOR Vx, Vy
  | addReg (x y : Reg)               -- 8xy4 ADD Vx, Vy
  | subReg (x y : Reg)               -- 8xy5 SUB Vx, Vy
  | shr (x y : Reg)                  -- 8xy6 SHR Vx, y decoded and ignored
  | subnReg (x y : Reg)              -- 8xy7 SUBN Vx, Vy
  | shl (x y : Reg)                  -- 8xyE SHL Vx, y decoded and ignored
  | sneReg (x y : Reg)               -- 9xy0 SNE Vx, Vy
  | ldI (nnn : Addr)                 -- Annn LD I, nnn
  | jpV0 (nnn : Addr)                -- Bnnn JP V0, nnn
  | rnd (x : Reg) (kk : Byte)        -- Cxkk RND Vx, kk
  | drw (x y : Reg) (n : Nibble)     -- Dxyn DRW Vx, Vy, n
  | skp (x : Reg)                    -- Ex9E SKP Vx
  | sknp (x : Reg)                   -- ExA1 SKNP Vx
  | ldVxDt (x : Reg)                 -- Fx07 LD Vx, DT
  | ldVxK (x : Reg)                  -- Fx0A LD Vx, K
  | ldDtVx (x : Reg)                 -- Fx15 LD DT, Vx
  | ldStVx (x : Reg)                 -- Fx18 LD ST, Vx
  | addI (x : Reg)                   -- Fx1E ADD I, Vx
  | ldF (x : Reg)                    -- Fx29 LD F, Vx
  | ldB (x : Reg)                    -- Fx33 LD B, Vx
  | ldMemVx (x : Reg)                -- Fx55 LD [I], Vx
  | ldVxMem (x : Reg)                -- Fx65 LD Vx, [I]
  | unknown (w : Word)               -- any other word
  deriving DecidableEq, Repr

namespace Instr

/-- The pattern of R55 that an instruction is an instance of, as the table spells it. -/
def pattern : Instr → String
  | .cls => "00E0"
  | .ret => "00EE"
  | .jp _ => "1nnn"
  | .call _ => "2nnn"
  | .seImm _ _ => "3xkk"
  | .sneImm _ _ => "4xkk"
  | .seReg _ _ => "5xy0"
  | .ldImm _ _ => "6xkk"
  | .addImm _ _ => "7xkk"
  | .ldReg _ _ => "8xy0"
  | .orReg _ _ => "8xy1"
  | .andReg _ _ => "8xy2"
  | .xorReg _ _ => "8xy3"
  | .addReg _ _ => "8xy4"
  | .subReg _ _ => "8xy5"
  | .shr _ _ => "8xy6"
  | .subnReg _ _ => "8xy7"
  | .shl _ _ => "8xyE"
  | .sneReg _ _ => "9xy0"
  | .ldI _ => "Annn"
  | .jpV0 _ => "Bnnn"
  | .rnd _ _ => "Cxkk"
  | .drw _ _ _ => "Dxyn"
  | .skp _ => "Ex9E"
  | .sknp _ => "ExA1"
  | .ldVxDt _ => "Fx07"
  | .ldVxK _ => "Fx0A"
  | .ldDtVx _ => "Fx15"
  | .ldStVx _ => "Fx18"
  | .addI _ => "Fx1E"
  | .ldF _ => "Fx29"
  | .ldB _ => "Fx33"
  | .ldMemVx _ => "Fx55"
  | .ldVxMem _ => "Fx65"
  | .unknown _ => "(any other word)"

end Instr
end Sys2Proof
end

