-- ==== Sys2Proof/WellFormed.lean ====
section
/-! DEFINITION. The opcode table of spec/opcode_table.json and the check that an instruction is one the encoding has:
operand widths are in the types, so the one thing left to check is that an unknown word matches no pattern
(30_encoding.md R52, R54, R56). -/

namespace Sys2Proof

/-- A row of the opcode map: a word `w` is an instance of the pattern when `w AND mask = value` (R52). -/
structure OpcodeRow where
  pattern : String
  mask : Word
  value : Word
  deriving DecidableEq, Repr

namespace OpcodeRow

/-- `w` is an instance of the row's pattern (R52, R54). -/
def isMatch (row : OpcodeRow) (w : Word) : Bool := w &&& row.mask == row.value

end OpcodeRow

/-- The rows of format Z, A, RI and RRN (R52). -/
def opcodeRowsWide : List OpcodeRow :=
  [⟨"00E0", 0xFFFF, 0x00E0⟩, ⟨"00EE", 0xFFFF, 0x00EE⟩, ⟨"1nnn", 0xF000, 0x1000⟩, ⟨"2nnn", 0xF000, 0x2000⟩,
   ⟨"3xkk", 0xF000, 0x3000⟩, ⟨"4xkk", 0xF000, 0x4000⟩, ⟨"6xkk", 0xF000, 0x6000⟩, ⟨"7xkk", 0xF000, 0x7000⟩,
   ⟨"Annn", 0xF000, 0xA000⟩, ⟨"Bnnn", 0xF000, 0xB000⟩, ⟨"Cxkk", 0xF000, 0xC000⟩, ⟨"Dxyn", 0xF000, 0xD000⟩]

/-- The rows of format RR (R52). -/
def opcodeRowsRR : List OpcodeRow :=
  [⟨"5xy0", 0xF00F, 0x5000⟩, ⟨"8xy0", 0xF00F, 0x8000⟩, ⟨"8xy1", 0xF00F, 0x8001⟩, ⟨"8xy2", 0xF00F, 0x8002⟩,
   ⟨"8xy3", 0xF00F, 0x8003⟩, ⟨"8xy4", 0xF00F, 0x8004⟩, ⟨"8xy5", 0xF00F, 0x8005⟩, ⟨"8xy6", 0xF00F, 0x8006⟩,
   ⟨"8xy7", 0xF00F, 0x8007⟩, ⟨"8xyE", 0xF00F, 0x800E⟩, ⟨"9xy0", 0xF00F, 0x9000⟩]

/-- The rows of format R (R52). -/
def opcodeRowsR : List OpcodeRow :=
  [⟨"Ex9E", 0xF0FF, 0xE09E⟩, ⟨"ExA1", 0xF0FF, 0xE0A1⟩, ⟨"Fx07", 0xF0FF, 0xF007⟩, ⟨"Fx0A", 0xF0FF, 0xF00A⟩,
   ⟨"Fx15", 0xF0FF, 0xF015⟩, ⟨"Fx18", 0xF0FF, 0xF018⟩, ⟨"Fx1E", 0xF0FF, 0xF01E⟩, ⟨"Fx29", 0xF0FF, 0xF029⟩,
   ⟨"Fx33", 0xF0FF, 0xF033⟩, ⟨"Fx55", 0xF0FF, 0xF055⟩, ⟨"Fx65", 0xF0FF, 0xF065⟩]

/-- The 34 patterns of R55. -/
def opcodeTable : List OpcodeRow := opcodeRowsWide ++ opcodeRowsRR ++ opcodeRowsR

/-- `w` matches some pattern of R55; a word that does not is an unknown opcode (R56). -/
def isKnownWord (w : Word) : Bool := opcodeTable.any (·.isMatch w)

namespace Instr

/-- An instruction the encoding has: an unknown opcode carries a word that matches no pattern (R56). -/
def wellFormed : Instr → Bool
  | .unknown w => !isKnownWord w
  | .cls | .ret | .jp _ | .call _ | .seImm _ _ | .sneImm _ _ | .seReg _ _ | .ldImm _ _ | .addImm _ _ | .ldReg _ _
  | .orReg _ _ | .andReg _ _ | .xorReg _ _ | .addReg _ _ | .subReg _ _ | .shr _ _ | .subnReg _ _ | .shl _ _
  | .sneReg _ _ | .ldI _ | .jpV0 _ | .rnd _ _ | .drw _ _ _ | .skp _ | .sknp _ | .ldVxDt _ | .ldVxK _ | .ldDtVx _
  | .ldStVx _ | .addI _ | .ldF _ | .ldB _ | .ldMemVx _ | .ldVxMem _ => true

end Instr
end Sys2Proof
end

