-- ==== Sys2Proof/Decode.lean ====
section
/-! DEFINITION. The decoder, total on words and on byte sequences, and the encoder (30_encoding.md R50 to R57,
20_memory.md R34). -/

namespace Sys2Proof

/-! The fields of an instruction word (R51). -/

/-- `op`, `w[15:12]`. -/
def opField (w : Word) : Nat := (w.extractLsb' 12 4).toNat

/-- `x`, `w[11:8]`. -/
def xField (w : Word) : Reg := ⟨(w.extractLsb' 8 4).toNat, (w.extractLsb' 8 4).isLt⟩

/-- `y`, `w[7:4]`. -/
def yField (w : Word) : Reg := ⟨(w.extractLsb' 4 4).toNat, (w.extractLsb' 4 4).isLt⟩

/-- `n`, `w[3:0]`. -/
def nField (w : Word) : Nibble := w.extractLsb' 0 4

/-- `kk`, `w[7:0]`. -/
def kkField (w : Word) : Byte := w.extractLsb' 0 8

/-- `nnn`, `w[11:0]`. -/
def nnnField (w : Word) : Addr := w.extractLsb' 0 12

/-- The words whose first nibble is 0: two patterns of format Z, all else unknown (R54, R56 (a)). -/
def decodeGroup0 (w : Word) : Instr :=
  if w = 0x00E0 then .cls else if w = 0x00EE then .ret else .unknown w

/-- The words whose first nibble is 8: the last nibble selects (R54, R56 (c)). -/
def decodeGroup8 (w : Word) : Instr :=
  match (nField w).toNat with
  | 0x0 => .ldReg (xField w) (yField w)
  | 0x1 => .orReg (xField w) (yField w)
  | 0x2 => .andReg (xField w) (yField w)
  | 0x3 => .xorReg (xField w) (yField w)
  | 0x4 => .addReg (xField w) (yField w)
  | 0x5 => .subReg (xField w) (yField w)
  | 0x6 => .shr (xField w) (yField w)
  | 0x7 => .subnReg (xField w) (yField w)
  | 0xE => .shl (xField w) (yField w)
  | _ => .unknown w

/-- The words whose first nibble is E: the last byte selects (R54, R56 (e)). -/
def decodeGroupE (w : Word) : Instr :=
  match (kkField w).toNat with
  | 0x9E => .skp (xField w)
  | 0xA1 => .sknp (xField w)
  | _ => .unknown w

/-- The words whose first nibble is F: the last byte selects (R54, R56 (f)). -/
def decodeGroupF (w : Word) : Instr :=
  match (kkField w).toNat with
  | 0x07 => .ldVxDt (xField w)
  | 0x0A => .ldVxK (xField w)
  | 0x15 => .ldDtVx (xField w)
  | 0x18 => .ldStVx (xField w)
  | 0x1E => .addI (xField w)
  | 0x29 => .ldF (xField w)
  | 0x33 => .ldB (xField w)
  | 0x55 => .ldMemVx (xField w)
  | 0x65 => .ldVxMem (xField w)
  | _ => .unknown w

/-- The decode procedure of R54: every word is one pattern with its fields, or unknown. -/
def decodeWord (w : Word) : Instr :=
  match opField w with
  | 0x0 => decodeGroup0 w
  | 0x1 => .jp (nnnField w)
  | 0x2 => .call (nnnField w)
  | 0x3 => .seImm (xField w) (kkField w)
  | 0x4 => .sneImm (xField w) (kkField w)
  | 0x5 => if nField w = 0 then .seReg (xField w) (yField w) else .unknown w
  | 0x6 => .ldImm (xField w) (kkField w)
  | 0x7 => .addImm (xField w) (kkField w)
  | 0x8 => decodeGroup8 w
  | 0x9 => if nField w = 0 then .sneReg (xField w) (yField w) else .unknown w
  | 0xA => .ldI (nnnField w)
  | 0xB => .jpV0 (nnnField w)
  | 0xC => .rnd (xField w) (kkField w)
  | 0xD => .drw (xField w) (yField w) (nField w)
  | 0xE => decodeGroupE w
  | _ => decodeGroupF w

/-- An instruction word from its two bytes, in address order (R34, D2); which one is high is a parameter, log 7. -/
def assembleWord (order : ByteOrder) (first second : Byte) : Word :=
  match order with
  | .highFirst => first ++ second
  | .lowFirst => second ++ first

/-- The two bytes of a word, in address order (R34). -/
def wordBytes (order : ByteOrder) (w : Word) : List Byte :=
  match order with
  | .highFirst => [w.extractLsb' 8 8, w.extractLsb' 0 8]
  | .lowFirst => [w.extractLsb' 0 8, w.extractLsb' 8 8]

/-- Why a sequence of bytes holds no instruction. No word is illegal (R56), so the one reason is that the word is not
whole (R50). -/
inductive DecodeReject where
  | truncated (bytesLeft : Nat)
  deriving DecidableEq, Repr

/-- The instruction at the head of a sequence of bytes and the bytes after it (R50, R54). -/
def decode (order : ByteOrder) : List Byte → Except DecodeReject (Instr × List Byte)
  | first :: second :: rest => .ok (decodeWord (assembleWord order first second), rest)
  | [_] => .error (.truncated 1)
  | [] => .error (.truncated 0)

/-! The six formats of R52, as words. -/

/-- A register selector as its nibble (R51). -/
def selector (r : Reg) : Nibble := BitVec.ofNat 4 r.val

/-- Format A: `op nnn`. -/
def formatA (op : Nibble) (nnn : Addr) : Word := op ++ nnn

/-- Format RI: `op x kk`. -/
def formatRI (op : Nibble) (x : Reg) (kk : Byte) : Word := op ++ selector x ++ kk

/-- Formats RR and RRN: `op x y sub`, where the last nibble is a literal or `n`. -/
def formatRR (op : Nibble) (x y : Reg) (sub : Nibble) : Word := op ++ selector x ++ selector y ++ sub

/-- Format R: `op x sub sub`. -/
def formatR (op : Nibble) (x : Reg) (sub : Byte) : Word := op ++ selector x ++ sub

/-- The word of an instruction, from the patterns of R55 and the formats of R52. -/
def encode : Instr → Word
  | .cls => 0x00E0
  | .ret => 0x00EE
  | .jp nnn => formatA 0x1 nnn
  | .call nnn => formatA 0x2 nnn
  | .seImm x kk => formatRI 0x3 x kk
  | .sneImm x kk => formatRI 0x4 x kk
  | .seReg x y => formatRR 0x5 x y 0x0
  | .ldImm x kk => formatRI 0x6 x kk
  | .addImm x kk => formatRI 0x7 x kk
  | .ldReg x y => formatRR 0x8 x y 0x0
  | .orReg x y => formatRR 0x8 x y 0x1
  | .andReg x y => formatRR 0x8 x y 0x2
  | .xorReg x y => formatRR 0x8 x y 0x3
  | .addReg x y => formatRR 0x8 x y 0x4
  | .subReg x y => formatRR 0x8 x y 0x5
  | .shr x y => formatRR 0x8 x y 0x6
  | .subnReg x y => formatRR 0x8 x y 0x7
  | .shl x y => formatRR 0x8 x y 0xE
  | .sneReg x y => formatRR 0x9 x y 0x0
  | .ldI nnn => formatA 0xA nnn
  | .jpV0 nnn => formatA 0xB nnn
  | .rnd x kk => formatRI 0xC x kk
  | .drw x y n => formatRR 0xD x y n
  | .skp x => formatR 0xE x 0x9E
  | .sknp x => formatR 0xE x 0xA1
  | .ldVxDt x => formatR 0xF x 0x07
  | .ldVxK x => formatR 0xF x 0x0A
  | .ldDtVx x => formatR 0xF x 0x15
  | .ldStVx x => formatR 0xF x 0x18
  | .addI x => formatR 0xF x 0x1E
  | .ldF x => formatR 0xF x 0x29
  | .ldB x => formatR 0xF x 0x33
  | .ldMemVx x => formatR 0xF x 0x55
  | .ldVxMem x => formatR 0xF x 0x65
  | .unknown w => w

/-- The bytes of an instruction in memory order (R34). -/
def encodeBytes (order : ByteOrder) (i : Instr) : List Byte := wordBytes order (encode i)

/-- The instruction that the decoder reads from the word whose bits are the low 16 bits of `w`, laid out in the spec's byte
order; every row of the table is one word (R50), so `nbits` plays no part. -/
def decodeTableWord (_nbits w : Nat) : Option Instr :=
  match decode Config.spec.fetchOrder (wordBytes Config.spec.fetchOrder (BitVec.ofNat 16 w)) with
  | .ok (i, _) => some i
  | .error _ => none

end Sys2Proof
end

