-- ==== Sys2Proof/Machine/State.lean ====
section
/-! DEFINITION. The state of the machine (10_state.md R10), the moves of its agents (40_cycle.md R65), the reasons a step can
stop, and the state after reset (R22). -/

namespace Sys2Proof.Machine

/-- `CPU` run status (R20). `waitKey x` remembers the register that a pending `Fx0A` names. -/
inductive Status where
  | running
  | waitKey (x : Reg)
  | halted
  | faulted
  deriving DecidableEq, Repr

/-- `FAULT.cause` by name, `none` when no fault has been raised since reset (R140). -/
inductive FaultCause where
  | none
  | fetchBounds
  | memBounds
  | fontWrite
  | stackOverflow
  | stackUnderflow
  | keyIndex
  deriving DecidableEq, Repr

/-- The code of a cause, 0 to 6 (R140). -/
def FaultCause.code : FaultCause → Nibble
  | .none => 0
  | .fetchBounds => 1
  | .memBounds => 2
  | .fontWrite => 3
  | .stackOverflow => 4
  | .stackUnderflow => 5
  | .keyIndex => 6

/-- The `FAULT` record (R20, R140). -/
structure FaultRecord where
  cause : FaultCause
  addr : Word
  info : Word
  deriving DecidableEq, Repr

/-- `FB`: 32 rows of 64 pixels, row first (R18); `true` is set. -/
abbrev Framebuffer := Vector (Vector Bool 64) 32

/-- `MEM` as the cells that differ from what an unlisted address reads as, addresses rising (R19). -/
abbrev Memory := List Host.Cell

/-- How far the boot sequence has come since the last `Reset` (R172): the guard of `Load` reads it. -/
inductive Boot where
  | fresh
  | loaded
  | started
  deriving DecidableEq, Repr

/-- A step of one agent (R65): the CPU, TIMER's `Tick`, RENDER's `Snapshot`, and HOST's four. -/
inductive Move where
  | cpu
  | tick
  | snapshot
  | press (k : Key)
  | release (k : Key)
  | reset
  | load (image : List Byte)
  deriving DecidableEq, Repr

/-- What leaves the block: a frame (R151), and the optional `UnknownOpcode(a, w)` (R153). -/
inductive Output where
  | frame (fb : Framebuffer)
  | unknownOpcode (addr : Word) (w : Word)
  deriving DecidableEq, Repr

/-- The state: the thirteen components of R10, then five fields of the model's own (log 9), which hold what R21 calls inputs
and parameters of a step, and its outputs. -/
structure State where
  /-- `V[0..15]` (R11). -/
  v : Vector Byte 16
  /-- `I` (R13). -/
  i : Addr
  /-- `pc` (R14). -/
  pc : Word
  /-- `sp`, 0 to 16 (R15). DEDUCED: the legal values only, log 11. -/
  sp : Fin 17
  /-- `STACK[1..16]`, slot `j` at index `j - 1` (R15). -/
  stack : Vector Word 16
  /-- `DT` (R16). -/
  dt : Byte
  /-- `ST` (R16). -/
  st : Byte
  /-- `KEY[0..15]` (R17). -/
  key : Vector Bool 16
  /-- `KEYFLAG` (R17). -/
  keyFlag : Bool
  /-- `FB` (R18). -/
  fb : Framebuffer
  /-- `MEM` (R19). -/
  mem : Memory
  /-- `STATUS` (R20). -/
  status : Status
  /-- `FAULT` (R20). -/
  fault : FaultRecord
  /-- The model's own: the boot phase (R172), log 14. -/
  boot : Boot
  /-- The model's own: the moves to come, the CPU's when empty (R66), log 1. -/
  schedule : List Move
  /-- The model's own: how many free bytes have been drawn (R101, R134), log 4. -/
  draws : Nat
  /-- The model's own: the outputs so far, oldest first (R151, R153), log 15. -/
  outputs : List Output
  /-- The model's own: the parameters of R5, log 5. -/
  cfg : Config
  deriving DecidableEq, Repr

/-- Why a step of the model stops. None of these is a fault of R140: those are entered as next states (R141), and no
instruction's meaning ever answers one of these. All are SAFE: the spec gives the machine no such step. -/
inductive Fault where
  /-- Raised by a CPU move when `STATUS` is `Halted`: the run is over (R67, R72). Safe. -/
  | runOverHalted
  /-- Raised by a CPU move when `STATUS` is `Faulted`: the run is over (R67, R72). Safe. -/
  | runOverFaulted
  /-- Raised by a `Load` move after a `Load` or a CPU step since the last `Reset`: it is not enabled (R172, U16). Safe. -/
  | loadNotEnabled
  deriving DecidableEq, Repr

/-- Why an instruction has no meaning. -/
inductive Refusal where
  /-- Raised by an arm of `exec` that is still without a meaning; there is none. Safe. -/
  | notModelled (mnemonic : String)
  deriving DecidableEq, Repr

/-- What a meaning and a step answer. -/
abbrev Result := Host.Outcome State Fault Refusal

/-- The state right after `Reset` (R22, R170). `pc` is the document's; the zeros are the spec's decision (D15, D16), log 8,
log 10; the last five fields are the model's DESIGN CHOICE, log 9. -/
def State.reset : State where
  v := Vector.replicate 16 0
  i := 0
  pc := 0x200
  sp := 0
  stack := Vector.replicate 16 0
  dt := 0
  st := 0
  key := Vector.replicate 16 false
  keyFlag := false
  fb := Vector.replicate 32 (Vector.replicate 64 false)
  mem := []
  status := .running
  fault := ⟨.none, 0, 0⟩
  boot := .fresh
  schedule := []
  draws := 0
  outputs := []
  cfg := Config.spec

end Sys2Proof.Machine
end

