-- ==== Sys2Proof/Machine/Ops.lean ====
section
/-! DEFINITION. The named operations over registers, stack and memory, fault entry, and the way out of a fault (10_state.md,
20_memory.md, 60_exceptions.md R141, R142, 70_reset_and_hazards.md R170). -/

namespace Sys2Proof.Machine

/-! Memory as a canonical list (R19). -/

/-- What a cell that the list does not name reads as: the font below `0x050`, 0 above it (R22, R31, R32; D16, log 10). -/
def Memory.unlisted (c : Config) (a : Nat) : Byte :=
  if h : a < 80 then c.font[a] else 0

/-- The byte the list names for an address. -/
def Memory.lookup : Memory → Nat → Option Byte
  | [], _ => none
  | cell :: rest, a => if cell.1 = a then some cell.2 else Memory.lookup rest a

/-- `MEM[a]` (R30). -/
def Memory.read (c : Config) (m : Memory) (a : Nat) : Byte :=
  (m.lookup a).getD (Memory.unlisted c a)

/-- Name the byte of an address, in its place in the rising order. -/
def Memory.insert : Memory → Nat → Byte → Memory
  | [], a, b => [(a, b)]
  | cell :: rest, a, b =>
    if a < cell.1 then (a, b) :: cell :: rest
    else if a = cell.1 then (a, b) :: rest
    else cell :: Memory.insert rest a b

/-- Name no byte of an address. -/
def Memory.erase (m : Memory) (a : Nat) : Memory := m.filter fun cell => cell.1 != a

/-- `MEM[a] <- b`; an entry that says what an unlisted cell reads as is not kept, so equal memories are equal lists. -/
def Memory.write (c : Config) (m : Memory) (a : Nat) (b : Byte) : Memory :=
  if b = Memory.unlisted c a then m.erase a else m.insert a b

/-- The canonical form: addresses strictly rising, each a cell of memory, no entry equal to what an unlisted cell reads as. -/
abbrev Memory.wf (c : Config) (m : Memory) : Prop :=
  m.Pairwise (fun p q => p.1 < q.1) ∧ ∀ p ∈ m, p.1 < c.memSize ∧ p.2 ≠ Memory.unlisted c p.1

/-! Accessors. -/

/-- `V[r]` (R11). -/
def State.reg (s : State) (r : Reg) : Byte := s.v.get r

/-- `V[r] <- b` (R11: no register is hardwired). -/
def State.setReg (s : State) (r : Reg) (b : Byte) : State := { s with v := s.v.set r.val b r.isLt }

/-- `STACK[j + 1]` (R15). -/
def State.slot (s : State) (j : Fin 16) : Word := s.stack.get j

/-- `KEY[k]` (R17). -/
def State.held (s : State) (k : Key) : Bool := s.key.get k

/-- `FB[r][c]` of a framebuffer (R18). -/
def pixelOf (fb : Framebuffer) (r : Fin 32) (c : Fin 64) : Bool := (fb.get r).get c

/-- `FB[r][c]` (R18). -/
def State.pixel (s : State) (r : Fin 32) (c : Fin 64) : Bool := pixelOf s.fb r c

/-- `MEM[a]` as the state holds it (R30). -/
def State.readByte (s : State) (a : Nat) : Byte := s.mem.read s.cfg a

/-- `MEM[a] <- b`, unchecked: every use stands behind a check (R38) or is not a CPU store (R173). -/
def State.writeByte (s : State) (a : Nat) (b : Byte) : State := { s with mem := s.mem.write s.cfg a b }

/-- The `n` bytes from `base` on, lowest address first (R33, R38). -/
def State.readBytes (s : State) (base n : Nat) : List Byte := (List.range n).map fun j => s.readByte (base + j)

/-- Store bytes from `base` on, lowest address first (R33, R38). -/
def State.storeBytes : State → Nat → List Byte → State
  | s, _, [] => s
  | s, base, b :: bs => State.storeBytes (s.writeByte base b) (base + 1) bs

/-! Access checks (R36, R37, R38). -/

/-- The fault that `MemRead` of one byte raises, if any (R36). -/
def State.readFault (s : State) (a : Nat) : Option FaultCause :=
  if s.cfg.memSize ≤ a then some .memBounds else none

/-- The fault that `MemWrite` of one byte raises, if any (R37). -/
def State.writeFault (s : State) (a : Nat) : Option FaultCause :=
  if s.cfg.memSize ≤ a then some .memBounds
  else if a < Config.fontCells ∧ s.cfg.fontWrite = .fault then some .fontWrite
  else none

/-- The first of the addresses that fails with a given cause: the lowest one, as addresses rise (R38, R143). -/
def firstFailing (check : Nat → Option FaultCause) (cause : FaultCause) (addrs : List Nat) : Option (FaultCause × Nat) :=
  (addrs.find? fun a => check a == some cause).map fun a => (cause, a)

/-- The check of all addresses an instruction reads, before it reads any (R38). -/
def State.checkReads (s : State) (addrs : List Nat) : Option (FaultCause × Nat) :=
  firstFailing s.readFault .memBounds addrs

/-- The check of all addresses an instruction writes, before it writes any; `MEM_BOUNDS` is reported before `FONT_WRITE`
(R38, R143). -/
def State.checkWrites (s : State) (addrs : List Nat) : Option (FaultCause × Nat) :=
  match firstFailing s.writeFault .memBounds addrs with
  | some f => some f
  | none => firstFailing s.writeFault .fontWrite addrs

/-! Taking an exception (R141). -/

/-- Fault entry for the instruction at address `a`: the record, the status, and nothing else (R141). The caller passes the
state before any write of the instruction, so its writes are discarded. -/
def State.raiseAt (s : State) (a : Word) (cause : FaultCause) (info : Nat) : State :=
  { s with fault := ⟨cause, a, BitVec.ofNat 16 info⟩, status := .faulted }

/-- The low `PCLEN` bits of a sum that goes to `pc` (R5, D3). At the spec's 16 bits this changes nothing, log 12. -/
def wrapPc (c : Config) (w : Word) : Word := BitVec.ofNat 16 (w.toNat % 2 ^ c.pcLen.bits)

/-- `pc + 2`, the address after the word at `pc` (R68). -/
def State.afterWord (s : State) : Word := wrapPc s.cfg (s.pc + 2)

/-- The address of the instruction whose rule is running, when the fetch has advanced `pc` past it (R68, R141). DEDUCED,
log 22. -/
def State.instrAddr (s : State) : Word := wrapPc s.cfg (s.pc - 2)

/-- Fault entry inside an instruction's rule, where `pc` is the instruction's address plus 2 and stays there (R68, R141). -/
def State.raise (s : State) (cause : FaultCause) (info : Nat) : State :=
  s.raiseAt s.instrAddr cause info

/-- The only way out of `Faulted` and `Halted` is `Reset`; there is no return from a fault (R142, R170). The schedule, the
draws made, the outputs and the parameters are no part of the machine and stay (log 16). -/
def State.afterReset (s : State) : State :=
  { State.reset with schedule := s.schedule, draws := s.draws, outputs := s.outputs, cfg := s.cfg }

/-- Run an instruction that reads `addrs`: raise the fault of the first failing address, else go to the given state (R38). -/
def State.afterReads (s : State) (addrs : List Nat) (done : State) : Result :=
  match s.checkReads addrs with
  | some (cause, a) => .next (s.raise cause a)
  | none => .next done

/-- Run an instruction that writes `addrs`: raise the fault that comes first, else go to the given state (R38). -/
def State.afterWrites (s : State) (addrs : List Nat) (done : State) : Result :=
  match s.checkWrites addrs with
  | some (cause, a) => .next (s.raise cause a)
  | none => .next done

/-! Control transfer. -/

/-- `pc <- target`. -/
def State.jump (s : State) (target : Word) : State := { s with pc := target }

/-- Skip the next word when the condition holds (R83 to R86, R130, R131; R88 (f): with no check of the result). -/
def State.skipIf (s : State) (condition : Bool) : State := if condition then s.jump s.afterWord else s

/-- `sp <- sp + 1; STACK[sp] <- pc`, or none when the stack is full (R82). -/
def State.push (s : State) : Option State :=
  if h : s.sp.val < 16 then
    some { s with sp := ⟨s.sp.val + 1, by omega⟩, stack := s.stack.set s.sp.val s.pc h }
  else none

/-- `pc <- STACK[sp]; sp <- sp - 1`, or none when the stack is empty; the slot keeps its value (R80). -/
def State.pop (s : State) : Option State :=
  if h : 0 < s.sp.val then
    some { s with pc := s.stack[s.sp.val - 1]'(by omega), sp := ⟨s.sp.val - 1, by omega⟩ }
  else none

/-- A free byte and the state in which it has been drawn (R7 `draw r : byte`; log 4). -/
def State.drawByte (s : State) : Byte × State := (Config.freeByte s.draws, { s with draws := s.draws + 1 })

end Sys2Proof.Machine
end

