-- ==== Sys2Proof/Machine/Agents.lean ====
section
/-! DEFINITION. The steps of TIMER, RENDER and HOST (60_exceptions.md R147 to R151, 70_reset_and_hazards.md R170 to R173). -/

namespace Sys2Proof.Machine

/-- A counter after one `Tick`: one less, never below 0 (R147). -/
def countDown (t : Byte) : Byte := if t = 0 then 0 else t - 1

/-- `Tick`: both counters in one step (R147). -/
def State.tick (s : State) : State := { s with dt := countDown s.dt, st := countDown s.st }

/-- `Press(k)`: the key is held and the flag is raised, whatever the key was (R148). -/
def State.press (s : State) (k : Key) : State := { s with key := s.key.set k.val true k.isLt, keyFlag := true }

/-- `Release(k)`: the key is not held; the flag stays (R149). -/
def State.release (s : State) (k : Key) : State := { s with key := s.key.set k.val false k.isLt }

/-- `Snapshot`: a copy of the whole grid goes out; the machine does not change (R151). -/
def State.snapshot (s : State) : State := { s with outputs := s.outputs ++ [.frame s.fb] }

/-- Copy the bytes of an image to rising addresses until it ends or memory does (R173): not CPU stores, so unchecked. -/
def State.copyImage : State → Nat → List Byte → State
  | s, _, [] => s
  | s, a, b :: bs => if a < s.cfg.memSize then State.copyImage (s.writeByte a b) (a + 1) bs else s

/-- `Load(image)`: once, before the first CPU step since `Reset` (R172, R173). A `Load` that is not enabled is no step of the
machine (U16). -/
def State.load (s : State) (image : List Byte) : Result :=
  match s.boot with
  | .fresh => .next { s.copyImage Config.progBase image with boot := .loaded }
  | .loaded => .fault .loadNotEnabled
  | .started => .fault .loadNotEnabled

end Sys2Proof.Machine
end

