-- ==== Sys2Proof/Machine/Operands.lean ====
section
/-! DEFINITION. The operand forms: effective addresses, jump targets, the glyph address, decimal digits, key indices, and
register blocks (20_memory.md R38, 43_index_memory.md R116, 45_keys_timers.md R130). -/

namespace Sys2Proof.Machine

/-- The effective addresses `base + 0` to `base + (n - 1)`, plain sums that are not wrapped (R38, R116). -/
def effectiveAddrs (base n : Nat) : List Nat := (List.range n).map fun j => base + j

/-- `zext_16(nnn)`, an absolute jump target (R53, R81). -/
def absoluteTarget (nnn : Addr) : Word := nnn.setWidth 16

/-- `zext_16(nnn) + zext_16(V[0])`, not reduced modulo 4096 (R87). -/
def indexedTarget (nnn : Addr) (v0 : Byte) : Word := nnn.setWidth 16 + v0.setWidth 16

/-- `(I + V[x]) mod 4096` (R111). -/
def advancedIndex (i : Addr) (v : Byte) : Addr := BitVec.ofNat 12 ((i.toNat + v.toNat) % 4096)

/-- `V[x] * 5`, the address of the glyph of a digit, with the whole register multiplied (R112). -/
def glyphAddr (v : Byte) : Addr := BitVec.ofNat 12 (v.toNat * 5)

/-- The hundreds, tens and ones of a register value, in the order they are stored (R113). -/
def decimalDigits (v : Byte) : List Byte :=
  [BitVec.ofNat 8 (v.toNat / 100), BitVec.ofNat 8 (v.toNat / 10 % 10), BitVec.ofNat 8 (v.toNat % 10)]

/-- `V[0]` to `V[x]` in order (R114). -/
def State.regBlock (s : State) (x : Reg) : List Byte := s.v.toList.take (x.val + 1)

/-- `V[0]` to `V[x]` loaded from `base` on, the other registers kept (R115). -/
def State.loadBlock (s : State) (x : Reg) (base : Nat) : State :=
  { s with v := Vector.ofFn fun j => if j.val ≤ x.val then s.readByte (base + j.val) else s.v.get j }

/-- What the latch reads for the index in a register: the level of that key, or none when the read faults; an index above 15
goes by `KEY_INDEX_POLICY` (R130, R131, D9). -/
def State.keyReading (s : State) (index : Byte) : Option Bool :=
  if h : index.toNat < 16 then some (s.held ⟨index.toNat, h⟩)
  else
    match s.cfg.keyIndex with
    | .fault => none
    | .mask4 => some (s.held (Fin.ofNat 16 index.toNat))
    | .notPressed => some false

/-- The lowest-indexed key that is held, if any (R134). -/
def State.lowestHeld (s : State) : Option Key := (List.finRange 16).find? fun k => s.held k

end Sys2Proof.Machine
end

