-- ==== Sys2Proof/Machine/ControlFlow.lean ====
section
/-! DEFINITION. Control transfer and the unknown word (41_control_flow.md R80 to R88, 30_encoding.md R57, 60_exceptions.md
R153). In every meaning `pc` already holds the instruction's address plus 2 (R68). -/

namespace Sys2Proof.Machine

/-- `00EE` RET (R80). -/
def execRet (s : State) : Result :=
  match s.pop with
  | some t => .next t
  | none => .next (s.raise .stackUnderflow 0)

/-- `1nnn` JP nnn (R81). -/
def execJp (nnn : Addr) (s : State) : Result := .next (s.jump (absoluteTarget nnn))

/-- `2nnn` CALL nnn (R82): the pushed address is that of the next instruction. -/
def execCall (nnn : Addr) (s : State) : Result :=
  match s.push with
  | some t => .next (t.jump (absoluteTarget nnn))
  | none => .next (s.raise .stackOverflow 0)

/-- `3xkk` SE Vx, kk (R83). -/
def execSeImm (x : Reg) (kk : Byte) (s : State) : Result := .next (s.skipIf (s.reg x == kk))

/-- `4xkk` SNE Vx, kk (R84). -/
def execSneImm (x : Reg) (kk : Byte) (s : State) : Result := .next (s.skipIf (s.reg x != kk))

/-- `5xy0` SE Vx, Vy (R85). -/
def execSeReg (x y : Reg) (s : State) : Result := .next (s.skipIf (s.reg x == s.reg y))

/-- `9xy0` SNE Vx, Vy (R86). -/
def execSneReg (x y : Reg) (s : State) : Result := .next (s.skipIf (s.reg x != s.reg y))

/-- `Bnnn` JP V0, nnn (R87). -/
def execJpV0 (nnn : Addr) (s : State) : Result := .next (s.jump (wrapPc s.cfg (indexedTarget nnn (s.reg 0))))

/-- The optional diagnostic of R153, emitted where the configuration has it. -/
def State.signalUnknown (s : State) (w : Word) : State :=
  if s.cfg.unknownSignal then { s with outputs := s.outputs ++ [.unknownOpcode s.instrAddr w] } else s

/-- An unknown word is a no-operation (R57). -/
def execUnknown (w : Word) (s : State) : Result := .next (s.signalUnknown w)

end Sys2Proof.Machine
end

