-- ==== Sys2Proof/Machine/Display.lean ====
section
/-! DEFINITION. The display instructions and the framebuffer's two mutators, `clear` and `draw` (44_display.md R120 to
R124). -/

namespace Sys2Proof.Machine

/-- `clear()`: every pixel 0 (R120). -/
def clearedFramebuffer : Framebuffer := Vector.replicate 32 (Vector.replicate 64 false)

/-- `FB[r][c] <- FB[r][c] XOR 1` (R122). -/
def togglePixel (fb : Framebuffer) (r : Fin 32) (c : Fin 64) : Framebuffer :=
  fb.set r.val ((fb.get r).set c.val (!pixelOf fb r c) c.isLt) r.isLt

/-- A framebuffer being drawn on, and whether a pixel has been erased so far (R122 `erased`). -/
structure Canvas where
  fb : Framebuffer
  erased : Bool
  deriving DecidableEq, Repr

/-- One set bit of a sprite: the pixel is toggled, and counts as erased when it was set (R122). -/
def canvasToggle (d : Canvas) (r : Fin 32) (c : Fin 64) : Canvas :=
  ⟨togglePixel d.fb r c, d.erased || pixelOf d.fb r c⟩

/-- Bit `k` of a sprite row, `k = 0` the most significant: row modulo 32, column modulo 64, untouched when the bit is 0
(R122). -/
def drawBit (px row : Nat) (b : Byte) (d : Canvas) (k : Nat) : Canvas :=
  if b.getLsbD (7 - k) then canvasToggle d (Fin.ofNat 32 row) (Fin.ofNat 64 (px + k)) else d

/-- The eight bits of a sprite row, most significant first (R122). -/
def drawRow (px row : Nat) (b : Byte) (d : Canvas) : Canvas := (List.range 8).foldl (drawBit px row b) d

/-- The rows of a sprite, the first at `row` (R122). -/
def drawRows (px : Nat) : Nat → List Byte → Canvas → Canvas
  | _, [], d => d
  | row, b :: bs, d => drawRows px (row + 1) bs (drawRow px row b d)

/-- `draw(px, py, b[0..n-1])`: the new framebuffer and `erased` (R122). -/
def drawSprite (px py : Byte) (sprite : List Byte) (fb : Framebuffer) : Canvas :=
  drawRows px.toNat py.toNat sprite ⟨fb, false⟩

/-- The sprite that `Dxyn` draws: `n` bytes from `I` on (R121). -/
def State.sprite (s : State) (n : Nibble) : List Byte := s.readBytes s.i.toNat n.toNat

/-- What `Dxyn` does once its addresses have been checked: draw, then write the flag (R121). -/
def State.drawn (s : State) (x y : Reg) (n : Nibble) : State :=
  let d := drawSprite (s.reg x) (s.reg y) (s.sprite n) s.fb
  { s with fb := d.fb }.setReg vF (flagByte d.erased)

/-- `00E0` CLS (R120). -/
def execCls (s : State) : Result := .next { s with fb := clearedFramebuffer }

/-- `Dxyn` DRW Vx, Vy, n (R121). -/
def execDrw (x y : Reg) (n : Nibble) (s : State) : Result :=
  s.afterReads (effectiveAddrs s.i.toNat n.toNat) (s.drawn x y n)

end Sys2Proof.Machine
end

