-- ==== Sys2Proof/Machine/IndexMemory.lean ====
section
/-! DEFINITION. The address register and the loads and stores (43_index_memory.md R110 to R116). -/

namespace Sys2Proof.Machine

/-- `Annn` LD I, nnn (R110). -/
def execLdI (nnn : Addr) (s : State) : Result := .next { s with i := nnn }

/-- `Fx1E` ADD I, Vx (R111): modulo 4096, no flag. -/
def execAddI (x : Reg) (s : State) : Result := .next { s with i := advancedIndex s.i (s.reg x) }

/-- `Fx29` LD F, Vx (R112). -/
def execLdF (x : Reg) (s : State) : Result := .next { s with i := glyphAddr (s.reg x) }

/-- `Fx33` LD B, Vx (R113). -/
def execLdB (x : Reg) (s : State) : Result :=
  s.afterWrites (effectiveAddrs s.i.toNat 3) (s.storeBytes s.i.toNat (decimalDigits (s.reg x)))

/-- `Fx55` LD [I], Vx (R114): `x + 1` cells, `I` unchanged. -/
def execLdMemVx (x : Reg) (s : State) : Result :=
  s.afterWrites (effectiveAddrs s.i.toNat (x.val + 1)) (s.storeBytes s.i.toNat (s.regBlock x))

/-- `Fx65` LD Vx, [I] (R115): `x + 1` cells, `I` unchanged. -/
def execLdVxMem (x : Reg) (s : State) : Result :=
  s.afterReads (effectiveAddrs s.i.toNat (x.val + 1)) (s.loadBlock x s.i.toNat)

end Sys2Proof.Machine
end

