-- ==== Sys2Proof/Machine/KeysTimers.lean ====
section
/-! DEFINITION. The key and timer instructions (45_keys_timers.md R130 to R137). -/

namespace Sys2Proof.Machine

/-- `Ex9E` SKP Vx (R130). -/
def execSkp (x : Reg) (s : State) : Result :=
  match s.keyReading (s.reg x) with
  | some pressed => .next (s.skipIf pressed)
  | none => .next (s.raise .keyIndex (s.reg x).toNat)

/-- `ExA1` SKNP Vx (R131). -/
def execSknp (x : Reg) (s : State) : Result :=
  match s.keyReading (s.reg x) with
  | some pressed => .next (s.skipIf (!pressed))
  | none => .next (s.raise .keyIndex (s.reg x).toNat)

/-- `Fx07` LD Vx, DT (R132). -/
def execLdVxDt (x : Reg) (s : State) : Result := .next (s.setReg x s.dt)

/-- `Fx0A` LD Vx, K, first part: begin the wait (R133). -/
def execLdVxK (x : Reg) (s : State) : Result := .next { s with keyFlag := false, status := .waitKey x }

/-- The key value that a completing `Fx0A` delivers and the state after any draw: the lowest held key, or a free byte when
none is held (R134, D13). -/
def State.keyDelivered (s : State) : Byte × State :=
  match s.lowestHeld with
  | some k => (BitVec.ofNat 8 k.val, s)
  | none => s.drawByte

/-- `Fx0A` LD Vx, K, second part: completion (R134). -/
def State.completeWait (s : State) (x : Reg) : State :=
  { s.keyDelivered.2.setReg x s.keyDelivered.1 with keyFlag := false, status := .running }

/-- `Fx15` LD DT, Vx (R135). -/
def execLdDtVx (x : Reg) (s : State) : Result := .next { s with dt := s.reg x }

/-- `Fx18` LD ST, Vx (R136). -/
def execLdStVx (x : Reg) (s : State) : Result := .next { s with st := s.reg x }

end Sys2Proof.Machine
end

