-- ==== Sys2Proof/Machine/Flags.lean ====
section
/-! DEFINITION. Every flag computation: carry, the strict comparisons, the bits shifted out, and the order in which flag and
result are written when `VF` is an operand (42_load_alu.md R96 to R100, R103). -/

namespace Sys2Proof.Machine

/-- The carry of `8xy4`: the sum of two registers is above 255 (R96). -/
def carryOut (a b : Byte) : Bool := 255 < a.toNat + b.toNat

/-- The flag of `8xy5`: `a > b`, strictly (R97). -/
def strictlyAbove (a b : Byte) : Bool := b.toNat < a.toNat

/-- The flag of `8xy6`: bit 0 (R98). -/
def bottomBit (a : Byte) : Bool := a.getLsbD 0

/-- The flag of `8xyE`: bit 7 (R100). -/
def topBit (a : Byte) : Bool := a.getLsbD 7

/-- `V[15] <- flag; V[x] <- result`, in that order (R103): with `x = 15` the result stays. -/
def State.writeFlagResult (s : State) (x : Reg) (flag : Bool) (result : Byte) : State :=
  (s.setReg vF (flagByte flag)).setReg x result

/-- A flag and a result that are known before either is written (R103): the result is written last, and under `flag_last` the
flag (D11, U9). -/
def State.writeSampled (s : State) (x : Reg) (flag : Bool) (result : Byte) : State :=
  match s.cfg.vfOperand with
  | .sampleFlagResult | .sequentialText => s.writeFlagResult x flag result
  | .flagLast => (s.setReg x result).setReg vF (flagByte flag)

/-- An instruction that sets a flag and a result from `V[x]` and `V[y]` in two assignments (R97 to R100), by `VF_ALIAS_POLICY`
(R103, D11): operands first, or each assignment re-reading the registers. -/
def State.flagAndResult (s : State) (x y : Reg) (flag : Byte → Byte → Bool) (result : Byte → Byte → Byte) : State :=
  match s.cfg.vfOperand with
  | .sampleFlagResult | .flagLast => s.writeSampled x (flag (s.reg x) (s.reg y)) (result (s.reg x) (s.reg y))
  | .sequentialText =>
    let t := s.setReg vF (flagByte (flag (s.reg x) (s.reg y)))
    t.setReg x (result (t.reg x) (t.reg y))

end Sys2Proof.Machine
end

