-- ==== Sys2Proof/Machine/LoadAlu.lean ====
section
/-! DEFINITION. Register load, arithmetic, logic, shift and random instructions (42_load_alu.md R90 to R103). -/

namespace Sys2Proof.Machine

/-- `6xkk` LD Vx, kk (R90). -/
def execLdImm (x : Reg) (kk : Byte) (s : State) : Result := .next (s.setReg x kk)

/-- `7xkk` ADD Vx, kk (R91): modulo 256, no flag. -/
def execAddImm (x : Reg) (kk : Byte) (s : State) : Result := .next (s.setReg x (s.reg x + kk))

/-- `8xy0` LD Vx, Vy (R92). -/
def execLdReg (x y : Reg) (s : State) : Result := .next (s.setReg x (s.reg y))

/-- `8xy1` OR Vx, Vy (R93). -/
def execOrReg (x y : Reg) (s : State) : Result := .next (s.setReg x (s.reg x ||| s.reg y))

/-- `8xy2` AND Vx, Vy (R94). -/
def execAndReg (x y : Reg) (s : State) : Result := .next (s.setReg x (s.reg x &&& s.reg y))

/-- `8xy3` XOR Vx, Vy (R95). -/
def execXorReg (x y : Reg) (s : State) : Result := .next (s.setReg x (s.reg x ^^^ s.reg y))

/-- `8xy4` ADD Vx, Vy (R96): the sum is taken before either write (R103), under `sequential_text` too. DEDUCED, log 13. -/
def execAddReg (x y : Reg) (s : State) : Result :=
  .next (s.writeSampled x (carryOut (s.reg x) (s.reg y)) (s.reg x + s.reg y))

/-- `8xy5` SUB Vx, Vy (R97). -/
def execSubReg (x y : Reg) (s : State) : Result :=
  .next (s.flagAndResult x y (fun a b => strictlyAbove a b) (fun a b => a - b))

/-- `8xy6` SHR Vx (R98): a logical shift; `V[y]` plays no part. -/
def execShr (x y : Reg) (s : State) : Result :=
  .next (s.flagAndResult x y (fun a _ => bottomBit a) (fun a _ => a >>> 1))

/-- `8xy7` SUBN Vx, Vy (R99). -/
def execSubnReg (x y : Reg) (s : State) : Result :=
  .next (s.flagAndResult x y (fun a b => strictlyAbove b a) (fun a b => b - a))

/-- `8xyE` SHL Vx (R100); `V[y]` plays no part. -/
def execShl (x y : Reg) (s : State) : Result :=
  .next (s.flagAndResult x y (fun a _ => topBit a) (fun a _ => a <<< 1))

/-- `Cxkk` RND Vx, kk (R101): a free byte, masked. -/
def execRnd (x : Reg) (kk : Byte) (s : State) : Result :=
  .next (s.drawByte.2.setReg x (s.drawByte.1 &&& kk))

end Sys2Proof.Machine
end

