-- ==== Sys2Proof/Machine/Cycle.lean ====
section
/-! DEFINITION. The CPU step, by status: halt test, fetch, advance, decode, dispatch, completion of a wait; and the step of
whichever agent moves (40_cycle.md R65 to R73). -/

namespace Sys2Proof.Machine

/-- The word at `pc` (R34, R68). -/
def State.fetchWord (s : State) : Word :=
  assembleWord s.cfg.fetchOrder (s.readByte s.pc.toNat) (s.readByte (s.pc.toNat + 1))

/-- A CPU step has been taken since `Reset` (R172). -/
def State.begun (s : State) : State := { s with boot := .started }

/-- `pc <- pc + 2`, before the instruction's own rule runs (R68). -/
def State.advanced (s : State) : State := { s with pc := s.afterWord }

/-- `pc` is outside memory: the normal end (R69). -/
def State.halt (s : State) : State := { s with status := .halted }

/-- The CPU step in `Running` (R67): halt test (R69), then `FETCH_BOUNDS` (R70), then fetch, decode and execute (R68, R71),
in the order of R143. -/
def runningStep (s : State) : Result :=
  if s.cfg.memSize ≤ s.pc.toNat then .next s.halt
  else if s.pc.toNat + 1 = s.cfg.memSize then .next (s.raiseAt s.pc .fetchBounds s.pc.toNat)
  else exec (decodeWord s.fetchWord) s.advanced

/-- The CPU's move (R67). Held in a wait with no `Press`, the CPU idles: nothing changes (R74, R137; DESIGN CHOICE, log 2).
When the run is over there is no step (R72; log 3). -/
def cpuStep (s : State) : Result :=
  match s.status with
  | .running => runningStep s.begun
  | .waitKey x => if s.keyFlag then .next (s.begun.completeWait x) else .next s
  | .halted => .fault .runOverHalted
  | .faulted => .fault .runOverFaulted

/-- The step of the agent that moves (R65). -/
def moveStep (m : Move) (s : State) : Result :=
  match m with
  | .cpu => cpuStep s
  | .tick => .next s.tick
  | .snapshot => .next s.snapshot
  | .press k => .next (s.press k)
  | .release k => .next (s.release k)
  | .reset => .next s.afterReset
  | .load image => s.load image

/-- The agent that moves next, the CPU when nothing is scheduled (R66; log 1). -/
def State.nextMove (s : State) : Move :=
  match s.schedule with
  | [] => .cpu
  | m :: _ => m

/-- The move that is being taken leaves the schedule. -/
def State.unscheduled (s : State) : State := { s with schedule := s.schedule.tail }

/-- Make the CPU the next to move, in a state in which it can fetch: running, with a whole word at `pc`; what already is so
stays. -/
def State.readyToFetch (s : State) : State :=
  { s with
    status := .running
    pc := if s.pc.toNat + 1 < s.cfg.memSize then s.pc else 0x200
    schedule := match s.nextMove with
      | .cpu => s.schedule
      | .tick | .snapshot | .press _ | .release _ | .reset | .load _ => .cpu :: s.schedule }

/-- A word stored where the next fetch reads, in the byte order of the fetch (R34). -/
def State.storeFetched (s : State) (w : Word) : State := s.storeBytes s.pc.toNat (wordBytes s.cfg.fetchOrder w)

end Sys2Proof.Machine
end

