-- ==== Sys2Proof/Machine/Step.lean ====
section
/-! DEFINITION. One step of the machine: the next scheduled move (40_cycle.md R65, R66), and the placing of an instruction
word where the next step fetches it. -/

namespace Sys2Proof.Machine

/-- One atomic step of one agent (R66). -/
def step (s : State) : Host.Outcome State Fault Refusal := moveStep s.nextMove s.unscheduled

/-- The state with the instruction word of bits `w` where the next step fetches (log 18). -/
def State.withFetchWord (s : State) (_nbits w : Nat) : State := s.readyToFetch.storeFetched (BitVec.ofNat 16 w)

end Sys2Proof.Machine
end

