-- ==== Sys2Proof/Safety.lean ====
section
/-! DEFINITION. The terms that claims about the machine use: the parts of a state and what a step leaves unchanged, the
invariant of the machine, the font's integrity, and the XOR mask of a sprite. -/

namespace Sys2Proof.Machine

/-! Frames. -/

/-- One part of a state: each register, flag, slot, key, pixel and byte on its own, and the model's own fields. -/
inductive Part where
  | reg (r : Reg)
  | index
  | pc
  | sp
  | slot (j : Fin 16)
  | dt
  | st
  | key (k : Key)
  | keyFlag
  | pixel (r : Fin 32) (c : Fin 64)
  | byte (a : Nat)
  | status
  | fault
  | boot
  | schedule
  | draws
  | outputs
  | cfg
  deriving DecidableEq, Repr

/-- Two states agree on a part. -/
def Part.same : Part → State → State → Prop
  | .reg r, s, t => t.reg r = s.reg r
  | .index, s, t => t.i = s.i
  | .pc, s, t => t.pc = s.pc
  | .sp, s, t => t.sp = s.sp
  | .slot j, s, t => t.slot j = s.slot j
  | .dt, s, t => t.dt = s.dt
  | .st, s, t => t.st = s.st
  | .key k, s, t => t.held k = s.held k
  | .keyFlag, s, t => t.keyFlag = s.keyFlag
  | .pixel r c, s, t => t.pixel r c = s.pixel r c
  | .byte a, s, t => t.readByte a = s.readByte a
  | .status, s, t => t.status = s.status
  | .fault, s, t => t.fault = s.fault
  | .boot, s, t => t.boot = s.boot
  | .schedule, s, t => t.schedule = s.schedule
  | .draws, s, t => t.draws = s.draws
  | .outputs, s, t => t.outputs = s.outputs
  | .cfg, s, t => t.cfg = s.cfg

/-- From `s` to `t` every part is unchanged except those that `touched` names. -/
def Unchanged (touched : Part → Prop) (s t : State) : Prop := ∀ p, ¬ touched p → p.same s t

/-- The parts that a fault entry changes: the record and the status (R141). -/
def Part.ofFaultEntry (p : Part) : Prop := p = .fault ∨ p = .status

/-- `p` is the address after the word at `s.pc`, in `PCLEN` bits (R68, D3). -/
def State.IsAfterWord (s : State) (p : Word) : Prop :=
  p.toNat = (s.pc.toNat + 2) % 2 ^ s.cfg.pcLen.bits

/-- `a` is the address of the word before `s.pc`, in `PCLEN` bits: the instruction whose rule runs on `s` (R68). -/
def State.IsInstrAddr (s : State) (a : Word) : Prop :=
  a.toNat = (s.pc.toNat + 2 ^ s.cfg.pcLen.bits - 2) % 2 ^ s.cfg.pcLen.bits

/-- `t` is `s` after fault entry of the instruction before `s.pc`, with a cause and an info (R141). -/
structure FaultEntered (s t : State) (cause : FaultCause) (info : Nat) : Prop where
  status : t.status = .faulted
  cause : t.fault.cause = cause
  addr : s.IsInstrAddr t.fault.addr
  info : t.fault.info = BitVec.ofNat 16 info
  frame : Unchanged Part.ofFaultEntry s t

/-- The instruction answers a state in which `pc` has gone past one more word exactly when the condition holds, and nothing
else has changed (R83 to R86, R130, R131). -/
def AnswersSkip (i : Instr) (condition : Prop) (s : State) : Prop :=
  ∃ t, exec i s = .next t ∧ (condition → s.IsAfterWord t.pc) ∧ (¬ condition → t.pc = s.pc) ∧ Unchanged (· = .pc) s t

/-- The instruction answers a state in which the flag was written last: it stays in `VF` (R103 `flag_last`). -/
def AnswersFlagLast (i : Instr) (x : Reg) (flag : Bool) (result : Byte) (s : State) : Prop :=
  ∃ t, exec i s = .next t ∧ (t.reg vF = if flag = true then 1 else 0) ∧ (x ≠ vF → t.reg x = result) ∧
    Unchanged (fun p => p = .reg x ∨ p = .reg vF) s t

/-- The instruction answers a state in which the result was written last: with `x = 15` it stays in `VF` (R103). -/
def AnswersResultLast (i : Instr) (x : Reg) (flag : Bool) (result : Byte) (s : State) : Prop :=
  ∃ t, exec i s = .next t ∧ t.reg x = result ∧ (x ≠ vF → t.reg vF = if flag = true then 1 else 0) ∧
    Unchanged (fun p => p = .reg x ∨ p = .reg vF) s t

/-! What the instructions may do. -/

/-- The instructions that define a flag outcome, and so write `V[15]` on every execution (R12). -/
def writesFlag : Instr → Bool
  | .addReg _ _ | .subReg _ _ | .shr _ _ | .subnReg _ _ | .shl _ _ | .drw _ _ _ => true
  | .cls | .ret | .jp _ | .call _ | .seImm _ _ | .sneImm _ _ | .seReg _ _ | .ldImm _ _ | .addImm _ _ | .ldReg _ _
  | .orReg _ _ | .andReg _ _ | .xorReg _ _ | .sneReg _ _ | .ldI _ | .jpV0 _ | .rnd _ _ | .skp _ | .sknp _
  | .ldVxDt _ | .ldVxK _ | .ldDtVx _ | .ldStVx _ | .addI _ | .ldF _ | .ldB _ | .ldMemVx _ | .ldVxMem _
  | .unknown _ => false

/-- The registers an instruction has as its destination in the step that dispatches it (42_load_alu.md, 43_index_memory.md,
45_keys_timers.md R132); `Fx0A` writes its register at completion (R133, R134). -/
def isDestination (i : Instr) (r : Reg) : Bool :=
  match i with
  | .ldImm x _ | .addImm x _ | .rnd x _ | .ldVxDt x => r == x
  | .ldReg x _ | .orReg x _ | .andReg x _ | .xorReg x _ | .addReg x _ | .subReg x _ | .shr x _ | .subnReg x _
  | .shl x _ => r == x
  | .ldVxMem x => decide (r ≤ x)
  | .cls | .ret | .jp _ | .call _ | .seImm _ _ | .sneImm _ _ | .seReg _ _ | .sneReg _ _ | .ldI _ | .jpV0 _ | .drw _ _ _
  | .skp _ | .sknp _ | .ldVxK _ | .ldDtVx _ | .ldStVx _ | .addI _ | .ldF _ | .ldB _ | .ldMemVx _ | .unknown _ => false

/-- The addresses an instruction stores to, computed as its meaning computes them (R113, R114). -/
def storedAddrs (i : Instr) (s : State) : List Nat :=
  match i with
  | .ldB _ => effectiveAddrs s.i.toNat 3
  | .ldMemVx x => effectiveAddrs s.i.toNat (x.val + 1)
  | .cls | .ret | .jp _ | .call _ | .seImm _ _ | .sneImm _ _ | .seReg _ _ | .ldImm _ _ | .addImm _ _ | .ldReg _ _
  | .orReg _ _ | .andReg _ _ | .xorReg _ _ | .addReg _ _ | .subReg _ _ | .shr _ _ | .subnReg _ _ | .shl _ _
  | .sneReg _ _ | .ldI _ | .jpV0 _ | .rnd _ _ | .drw _ _ _ | .skp _ | .sknp _ | .ldVxDt _ | .ldVxK _ | .ldDtVx _
  | .ldStVx _ | .addI _ | .ldF _ | .ldVxMem _ | .unknown _ => []

/-- The parts an instruction may change in the step that dispatches it, besides those of a fault entry: the writers that
R12 to R18, R24, R30 and R124 name. -/
def mayWrite (i : Instr) (s : State) (p : Part) : Prop :=
  match p with
  | .reg r => isDestination i r = true ∨ (writesFlag i = true ∧ r = vF)
  | .index => (∃ nnn, i = .ldI nnn) ∨ (∃ x, i = .addI x) ∨ (∃ x, i = .ldF x)
  | .pc =>
    i = .ret ∨ (∃ nnn, i = .jp nnn ∨ i = .call nnn ∨ i = .jpV0 nnn) ∨ (∃ x kk, i = .seImm x kk ∨ i = .sneImm x kk) ∨
      (∃ x y, i = .seReg x y ∨ i = .sneReg x y) ∨ (∃ x, i = .skp x ∨ i = .sknp x)
  | .sp => i = .ret ∨ ∃ nnn, i = .call nnn
  | .slot j => (∃ nnn, i = .call nnn) ∧ j.val = s.sp.val
  | .dt => ∃ x, i = .ldDtVx x
  | .st => ∃ x, i = .ldStVx x
  | .keyFlag => ∃ x, i = .ldVxK x
  | .pixel _ _ => i = .cls ∨ ∃ x y n, i = .drw x y n
  | .byte a => a ∈ storedAddrs i s
  | .status => ∃ x, i = .ldVxK x
  | .draws => ∃ x kk, i = .rnd x kk
  | .outputs => ∃ w, i = .unknown w
  | .key _ | .fault | .boot | .schedule | .cfg => False

/-! Words by pattern (R51, R52), as the rules' "Operands" and "Encoding" give them. -/

/-- A word of format A: the pattern's bits, and `nnn = w[11:0]`. -/
def IsA (w value : Word) (nnn : Addr) : Prop := w &&& 0xF000 = value ∧ w.extractLsb' 0 12 = nnn

/-- A word of format RI: the pattern's bits, `x = w[11:8]` and `kk = w[7:0]`. -/
def IsRI (w value : Word) (x : Reg) (kk : Byte) : Prop :=
  w &&& 0xF000 = value ∧ (w.extractLsb' 8 4).toNat = x.val ∧ w.extractLsb' 0 8 = kk

/-- A word of format RR: the pattern's bits, `x = w[11:8]` and `y = w[7:4]`. -/
def IsRR (w value : Word) (x y : Reg) : Prop :=
  w &&& 0xF00F = value ∧ (w.extractLsb' 8 4).toNat = x.val ∧ (w.extractLsb' 4 4).toNat = y.val

/-- A word of format RRN: the pattern's bits, `x = w[11:8]`, `y = w[7:4]` and `n = w[3:0]`. -/
def IsRRN (w value : Word) (x y : Reg) (n : Nibble) : Prop :=
  w &&& 0xF000 = value ∧ (w.extractLsb' 8 4).toNat = x.val ∧ (w.extractLsb' 4 4).toNat = y.val ∧ w.extractLsb' 0 4 = n

/-- A word of format R: the pattern's bits and `x = w[11:8]`. -/
def IsR (w value : Word) (x : Reg) : Prop := w &&& 0xF0FF = value ∧ (w.extractLsb' 8 4).toNat = x.val

/-! The invariant. -/

/-- What every step keeps, from any state that has it. -/
structure State.Inv (s : State) : Prop where
  /-- Memory is in its canonical form. -/
  memory : s.mem.wf s.cfg
  /-- The capacity is one of the two of R45. -/
  legal : s.cfg.legal
  /-- `FAULT` records a cause exactly while `STATUS` is `Faulted` (R20, R140, R142). -/
  faultRecord : s.status = .faulted ↔ s.fault.cause ≠ .none
  /-- The largest value `pc` holds is 4350 (R14). -/
  pcBound : s.pc.toNat ≤ 4350
  /-- `pc` fits `PCLEN` bits (R5, R14). -/
  pcWidth : s.pc.toNat < 2 ^ s.cfg.pcLen.bits
  /-- A stack slot holds at most `MEM_SIZE` (R80). -/
  stackBound : ∀ j, (s.slot j).toNat ≤ s.cfg.memSize
  /-- A stack slot fits `PCLEN` bits (R5, R15). -/
  stackWidth : ∀ j, (s.slot j).toNat < 2 ^ s.cfg.pcLen.bits

/-- The font region holds the font (R31, R32). -/
def State.FontIntact (s : State) : Prop := ∀ (a : Nat) (h : a < 80), s.readByte a = s.cfg.font[a]

/-! The picture a sprite makes. -/

/-- A sprite byte's pixel mask: the pixel at row `r` and column `c` lies under a 1 bit of row `i` of the sprite (R122). -/
def underSprite (px py : Byte) (sprite : List Byte) (r : Fin 32) (c : Fin 64) : Bool :=
  (List.range sprite.length).any fun i =>
    (List.range 8).any fun k =>
      (sprite.getD i 0).getLsbD (7 - k) && (py.toNat + i) % 32 == r.val && (px.toNat + k) % 64 == c.val

end Sys2Proof.Machine
end

