-- ==== Sys2Proof/Certificates/Slice0/Obligations.lean ====
section
/-! DEFINITION. The statements about Jhip8 CORE, one `def Obligations.<Name> : Prop` each; OBLIGATIONS.json lists them. A
meaning runs on the state in which the fetch has advanced `pc` (R68), so `s.pc` is the instruction's address plus 2, in `PCLEN`
bits (`State.IsInstrAddr`). -/

open Sys2Proof Sys2Proof.Machine

/-! Encoding. -/

/-- Words written out from the patterns of R55, one or more of each format of R52, and what they decode to. -/
def Obligations.DecoderReadsTheSpecsWords : Prop :=
  decodeWord 0x00E0 = .cls ∧ decodeWord 0x00EE = .ret ∧ decodeWord 0x1ABC = .jp 0xABC ∧ decodeWord 0x3342 = .seImm 3 0x42 ∧
    decodeWord 0x8127 = .subnReg 1 2 ∧ decodeWord 0xD0F1 = .drw 0 15 1 ∧ decodeWord 0xE1A1 = .sknp 1 ∧
    decodeWord 0xFA33 = .ldB 10 ∧ decodeWord 0x5121 = .unknown 0x5121 ∧ decodeWord 0x0000 = .unknown 0x0000

/-- The decoder is the opcode table: no word matches two of the 34 patterns (R54, marked derived there), a word that matches a
row is an instruction of that row's pattern, with the operands that R51 places in the word, and a word that matches none is
unknown and keeps all its bits (R54, R56; exact matching is the spec's decision D18, log 21). -/
def Obligations.DecoderFollowsTheOpcodeTable : Prop :=
  opcodeTable.length = 34 ∧ (opcodeTable.Pairwise fun a b => ∀ w, ¬ (a.isMatch w = true ∧ b.isMatch w = true)) ∧
  ∀ w : Word, (∀ row ∈ opcodeTable, row.isMatch w = true → (decodeWord w).pattern = row.pattern) ∧
    (isKnownWord w = false → decodeWord w = .unknown w) ∧
    (w = 0x00E0 → decodeWord w = .cls) ∧ (w = 0x00EE → decodeWord w = .ret) ∧
    (∀ nnn, (IsA w 0x1000 nnn → decodeWord w = .jp nnn) ∧ (IsA w 0x2000 nnn → decodeWord w = .call nnn) ∧
      (IsA w 0xA000 nnn → decodeWord w = .ldI nnn) ∧ (IsA w 0xB000 nnn → decodeWord w = .jpV0 nnn)) ∧
    (∀ x kk, (IsRI w 0x3000 x kk → decodeWord w = .seImm x kk) ∧ (IsRI w 0x4000 x kk → decodeWord w = .sneImm x kk) ∧
      (IsRI w 0x6000 x kk → decodeWord w = .ldImm x kk) ∧ (IsRI w 0x7000 x kk → decodeWord w = .addImm x kk) ∧
      (IsRI w 0xC000 x kk → decodeWord w = .rnd x kk)) ∧
    (∀ x y, (IsRR w 0x5000 x y → decodeWord w = .seReg x y) ∧ (IsRR w 0x9000 x y → decodeWord w = .sneReg x y) ∧
      (IsRR w 0x8000 x y → decodeWord w = .ldReg x y) ∧ (IsRR w 0x8001 x y → decodeWord w = .orReg x y) ∧
      (IsRR w 0x8002 x y → decodeWord w = .andReg x y) ∧ (IsRR w 0x8003 x y → decodeWord w = .xorReg x y) ∧
      (IsRR w 0x8004 x y → decodeWord w = .addReg x y) ∧ (IsRR w 0x8005 x y → decodeWord w = .subReg x y) ∧
      (IsRR w 0x8006 x y → decodeWord w = .shr x y) ∧ (IsRR w 0x8007 x y → decodeWord w = .subnReg x y) ∧
      (IsRR w 0x800E x y → decodeWord w = .shl x y)) ∧
    (∀ x y n, IsRRN w 0xD000 x y n → decodeWord w = .drw x y n) ∧
    (∀ x, (IsR w 0xE09E x → decodeWord w = .skp x) ∧ (IsR w 0xE0A1 x → decodeWord w = .sknp x) ∧
      (IsR w 0xF007 x → decodeWord w = .ldVxDt x) ∧ (IsR w 0xF00A x → decodeWord w = .ldVxK x) ∧
      (IsR w 0xF015 x → decodeWord w = .ldDtVx x) ∧ (IsR w 0xF018 x → decodeWord w = .ldStVx x) ∧
      (IsR w 0xF01E x → decodeWord w = .addI x) ∧ (IsR w 0xF029 x → decodeWord w = .ldF x) ∧
      (IsR w 0xF033 x → decodeWord w = .ldB x) ∧ (IsR w 0xF055 x → decodeWord w = .ldMemVx x) ∧
      (IsR w 0xF065 x → decodeWord w = .ldVxMem x))

/-- Decoding the bytes of any well-formed instruction, followed by any bytes, gives it and them back, in either byte order of
the fetch (D2, log 7). -/
def Obligations.DecodeInvertsEncode : Prop :=
  ∀ (order : ByteOrder) (i : Instr) (rest : List Byte), i.wellFormed = true →
    decode order (encodeBytes order i ++ rest) = .ok (i, rest)

/-- Every word decodes to a well-formed instruction, and encoding that gives the word back: no bit is dropped. -/
def Obligations.EncodeInvertsDecode : Prop :=
  ∀ w : Word, (decodeWord w).wellFormed = true ∧ encode (decodeWord w) = w

/-! The step. -/

/-- When the CPU moves, running, with a whole word at `pc`, the step is the decoded instruction's meaning on the state in
which `pc` has advanced by 2 (R67, R68, R71), in either byte order (D2) and at either width of `pc` (D3); `boot` and `schedule`
are the model's own (log 1, log 14). -/
def Obligations.StepRunsTheDecodedInstruction : Prop :=
  ∀ (s : State) (i : Instr) (p : Word), s.nextMove = .cpu → s.status = .running → s.pc.toNat + 1 < s.cfg.memSize →
    decode s.cfg.fetchOrder [s.readByte s.pc.toNat, s.readByte (s.pc.toNat + 1)] = .ok (i, []) → s.IsAfterWord p →
    step s = exec i { s with pc := p, boot := .started, schedule := s.schedule.tail }

/-- A step is the head of the schedule, the CPU's where nothing is scheduled (R65, R66; the schedule is the model's, log 1). -/
def Obligations.StepTakesTheScheduledMove : Prop :=
  (∀ (m : Move) (rest : List Move) (s : State), s.schedule = m :: rest → step s = moveStep m { s with schedule := rest }) ∧
    ∀ s : State, s.schedule = [] → step s = cpuStep s

/-- `pc` at or beyond the capacity ends the run: `Halted`, `pc` kept, no fault (R69; the exact test is the spec's decision D4). -/
def Obligations.CpuHaltsWhenPcLeavesMemory : Prop :=
  ∀ s : State, s.nextMove = .cpu → s.status = .running → s.cfg.memSize ≤ s.pc.toNat →
    ∃ t, step s = .next t ∧ t.status = .halted ∧
      Unchanged (fun p => p = .status ∨ p = .boot ∨ p = .schedule) s t

/-- `pc` at the last cell faults before any fetch, with `pc` not advanced (R70, R141; the spec's decisions D4, D10). -/
def Obligations.FetchAtTheLastCellFaults : Prop :=
  ∀ s : State, s.nextMove = .cpu → s.status = .running → s.pc.toNat + 1 = s.cfg.memSize →
    ∃ t, step s = .next t ∧ t.status = .faulted ∧ t.fault = ⟨.fetchBounds, s.pc, s.pc⟩ ∧
      Unchanged (fun p => p = .status ∨ p = .fault ∨ p = .boot ∨ p = .schedule) s t

/-- When the CPU has no enabled step (R67): a run that is over stops, and a held CPU changes nothing of the machine. That
the first is a stop and the second an idle step is the model's DESIGN CHOICE (log 2, log 3). -/
def Obligations.CpuWithNoEnabledStep : Prop :=
  (∀ s : State, s.nextMove = .cpu → s.status = .halted → step s = .fault .runOverHalted) ∧
    (∀ s : State, s.nextMove = .cpu → s.status = .faulted → step s = .fault .runOverFaulted) ∧
    ∀ (s : State) (x : Reg), s.nextMove = .cpu → s.status = .waitKey x → s.keyFlag = false →
      ∃ t, step s = .next t ∧ Unchanged (· = .schedule) s t

/-- The completion of `Fx0A`: once a press has come, the lowest held key is delivered, or a free byte where no key is held,
the flag is cleared and the CPU runs on, `pc` unchanged (R134, R137; the spec's decisions D12, D13; the free byte, log 4). -/
def Obligations.WaitCompletesWithTheLowestHeldKey : Prop :=
  ∀ (s : State) (x : Reg), s.nextMove = .cpu → s.status = .waitKey x → s.keyFlag = true →
    ∃ t, step s = .next t ∧ t.status = .running ∧ t.keyFlag = false ∧
      (∀ k : Key, s.held k = true → (∀ j : Key, j < k → s.held j = false) →
        (t.reg x).toNat = k.val ∧ t.draws = s.draws) ∧
      ((∀ k : Key, s.held k = false) → t.reg x = Config.freeByte s.draws ∧ t.draws = s.draws + 1) ∧
      Unchanged (fun p => p = .reg x ∨ p = .status ∨ p = .keyFlag ∨ p = .draws ∨ p = .boot ∨ p = .schedule) s t

/-- A step is never refused, and stops in three cases alone: a CPU move in `Halted`, a CPU move in `Faulted`, and a `Load` after
a `Load` or a CPU step (R67, R72, R172; that these are stops is the model's DESIGN CHOICE, log 3, log 14). A CPU held in
`WaitKey`, which has no enabled step either, idles (log 2). -/
def Obligations.StepStopsOnlyWhereNoStepIsEnabled : Prop :=
  ∀ s : State,
    (∀ r, step s ≠ .refused r) ∧
    (step s = .fault .runOverHalted ↔ s.nextMove = .cpu ∧ s.status = .halted) ∧
    (step s = .fault .runOverFaulted ↔ s.nextMove = .cpu ∧ s.status = .faulted) ∧
    (step s = .fault .loadNotEnabled ↔ (∃ image, s.nextMove = .load image) ∧ s.boot ≠ .fresh)

/-- Every instruction answers a next state in every state: no instruction's meaning stops. -/
def Obligations.EveryInstructionAnswersANextState : Prop := ∀ (i : Instr) (s : State), ∃ t, exec i s = .next t

/-! Control transfer. -/

/-- R81: its encoding, and the jump to any `nnn`. -/
def Obligations.JumpSetsPc : Prop :=
  ∀ (nnn : Addr) (s : State), (∀ w, IsA w 0x1000 nnn → decodeWord w = .jp nnn) ∧
    ∃ t, exec (.jp nnn) s = .next t ∧ t.pc.toNat = nnn.toNat ∧ Unchanged (· = .pc) s t

/-- R87: the sum with `V[0]`, reduced to the width of `pc` alone; at the spec's 16 bits (D3) it is the plain sum. -/
def Obligations.IndexedJumpAddsV0 : Prop :=
  ∀ (nnn : Addr) (s : State), ∃ t, exec (.jpV0 nnn) s = .next t ∧
    t.pc.toNat = (nnn.toNat + (s.reg 0).toNat) % 2 ^ s.cfg.pcLen.bits ∧
    (s.cfg.pcLen = .sixteen → t.pc.toNat = nnn.toNat + (s.reg 0).toNat) ∧ Unchanged (· = .pc) s t

/-- R82 with room on the stack: the address of the next instruction is pushed (slot numbering is the spec's decision D5). -/
def Obligations.CallPushesTheReturnAddress : Prop :=
  ∀ (nnn : Addr) (s : State) (h : s.sp.val < 16), ∃ t, exec (.call nnn) s = .next t ∧
    t.pc.toNat = nnn.toNat ∧ t.sp.val = s.sp.val + 1 ∧ t.slot ⟨s.sp.val, h⟩ = s.pc ∧
    Unchanged (fun p => p = .pc ∨ p = .sp ∨ p = .slot ⟨s.sp.val, h⟩) s t

/-- R80 with an entry on the stack: the top is popped, its slot kept (D5). -/
def Obligations.ReturnPopsTheStack : Prop :=
  ∀ (s : State) (h : 0 < s.sp.val), ∃ t, exec .ret s = .next t ∧
    t.pc = s.slot ⟨s.sp.val - 1, by omega⟩ ∧ t.sp.val = s.sp.val - 1 ∧ Unchanged (fun p => p = .pc ∨ p = .sp) s t

/-- A call on a full stack and a return on an empty one are fault entries that change nothing else (R80, R82, R141; the
spec's decisions D6, D10). -/
def Obligations.StackLimitsFault : Prop :=
  ∀ s : State,
    (s.sp.val = 16 → ∀ nnn, ∃ t, exec (.call nnn) s = .next t ∧ FaultEntered s t .stackOverflow 0) ∧
    (s.sp.val = 0 → ∃ t, exec .ret s = .next t ∧ FaultEntered s t .stackUnderflow 0)

/-- A call followed, wherever `pc` is by then, by a return comes back to the instruction after the call, with the stack
pointer and everything but the used slot as before (R80, R82). -/
def Obligations.CallThenReturnComesBack : Prop :=
  ∀ (nnn : Addr) (s : State) (h : s.sp.val < 16), ∃ t, exec (.call nnn) s = .next t ∧
    ∀ pc : Word, ∃ u, exec .ret { t with pc := pc } = .next u ∧ Unchanged (· = .slot ⟨s.sp.val, h⟩) s u

/-- R83 and R84: their encodings, and `pc` goes on by 2 exactly when the condition on the immediate holds. That the sum is taken in
`PCLEN` bits, the 12-bit wrap included, is the spec's decision D3 (log 12). -/
def Obligations.SkipsOnImmediate : Prop :=
  ∀ (x : Reg) (kk : Byte) (s : State),
    (∀ w, (IsRI w 0x3000 x kk → decodeWord w = .seImm x kk) ∧ (IsRI w 0x4000 x kk → decodeWord w = .sneImm x kk)) ∧
    AnswersSkip (.seImm x kk) (s.reg x = kk) s ∧ AnswersSkip (.sneImm x kk) (s.reg x ≠ kk) s

/-- R85 and R86: their encodings, the unknown words beside them (R54, R56; the spec's decision D18, log 21), and `pc` goes on by 2,
in `PCLEN` bits (the spec's decision D3, log 12), exactly when the condition on the two registers holds. -/
def Obligations.SkipsOnRegisters : Prop :=
  ∀ (x y : Reg) (s : State),
    (∀ w, (IsRR w 0x5000 x y → decodeWord w = .seReg x y) ∧ (IsRR w 0x9000 x y → decodeWord w = .sneReg x y)) ∧
    (∀ w : Word, (w &&& 0xF000 = 0x5000 ∨ w &&& 0xF000 = 0x9000) → w.extractLsb' 0 4 ≠ 0 → decodeWord w = .unknown w) ∧
    AnswersSkip (.seReg x y) (s.reg x = s.reg y) s ∧ AnswersSkip (.sneReg x y) (s.reg x ≠ s.reg y) s

/-- R57: an unknown word changes nothing; where the configuration has the optional signal of R153, it is the one output, with the
address the word was fetched from (log 15, log 22). -/
def Obligations.UnknownWordIsANoOp : Prop :=
  ∀ (w a : Word) (s : State), s.IsInstrAddr a → ∃ t, exec (.unknown w) s = .next t ∧ Unchanged (· = .outputs) s t ∧
    t.outputs = (if s.cfg.unknownSignal = true then s.outputs ++ [.unknownOpcode a w] else s.outputs)

/-! Registers and arithmetic. -/

/-- R90 and R92: their encodings and what they load, `VF` an ordinary destination and source. -/
def Obligations.LoadsCopyIntoARegister : Prop :=
  ∀ (x y : Reg) (kk : Byte) (s : State),
    (∀ w, (IsRI w 0x6000 x kk → decodeWord w = .ldImm x kk) ∧ (IsRR w 0x8000 x y → decodeWord w = .ldReg x y)) ∧
    (∃ t, exec (.ldImm x kk) s = .next t ∧ t.reg x = kk ∧ Unchanged (· = .reg x) s t) ∧
    (∃ t, exec (.ldReg x y) s = .next t ∧ t.reg x = s.reg y ∧ Unchanged (· = .reg x) s t)

/-- R91: modulo 256 and without a flag (that no flag is written is marked derived there). -/
def Obligations.AddImmediateWrapsWithoutFlag : Prop :=
  ∀ (x : Reg) (kk : Byte) (s : State), ∃ t, exec (.addImm x kk) s = .next t ∧
    (t.reg x).toNat = ((s.reg x).toNat + kk.toNat) % 256 ∧ Unchanged (· = .reg x) s t

/-- R93, R94 and R95, bit by bit, without a flag (R93 marks that as derived). -/
def Obligations.LogicActsBitByBit : Prop :=
  ∀ (x y : Reg) (s : State),
    (∃ t, exec (.orReg x y) s = .next t ∧ Unchanged (· = .reg x) s t ∧
      ∀ k, (t.reg x).getLsbD k = ((s.reg x).getLsbD k || (s.reg y).getLsbD k)) ∧
    (∃ t, exec (.andReg x y) s = .next t ∧ Unchanged (· = .reg x) s t ∧
      ∀ k, (t.reg x).getLsbD k = ((s.reg x).getLsbD k && (s.reg y).getLsbD k)) ∧
    (∃ t, exec (.xorReg x y) s = .next t ∧ Unchanged (· = .reg x) s t ∧
      ∀ k, (t.reg x).getLsbD k = ((s.reg x).getLsbD k ^^ (s.reg y).getLsbD k))

/-- R96 and R103: the sum modulo 256 and the carry in `VF`; with `x = 15` the result stays and the carry is lost, unless the
policy is `flag_last` (D11, U9), for which `VfOperandAlternatives` speaks. That `sequential_text` is no exception is DEDUCED
(log 13). -/
def Obligations.AddSetsTheCarry : Prop :=
  ∀ (x y : Reg) (s : State), (s.cfg.vfOperand ≠ .flagLast ∨ x ≠ vF) → ∃ t, exec (.addReg x y) s = .next t ∧
    (t.reg x).toNat = ((s.reg x).toNat + (s.reg y).toNat) % 256 ∧
    (x ≠ vF → (t.reg vF).toNat = if (s.reg x).toNat + (s.reg y).toNat > 255 then 1 else 0) ∧
    Unchanged (fun p => p = .reg x ∨ p = .reg vF) s t

/-- R97 and R99: the difference modulo 256 and the strict comparison in `VF`, under the spec's policy (D11) for every pair
of registers, and under every policy where neither is `VF`; with `x = 15` the result stays (R103). -/
def Obligations.SubtractionsSetTheStrictFlag : Prop :=
  ∀ (x y : Reg) (s : State), (s.cfg.vfOperand = .sampleFlagResult ∨ (x ≠ vF ∧ y ≠ vF)) →
    (∃ t, exec (.subReg x y) s = .next t ∧
      (t.reg x).toNat = ((s.reg x).toNat + 256 - (s.reg y).toNat) % 256 ∧
      (x ≠ vF → (t.reg vF).toNat = if (s.reg x).toNat > (s.reg y).toNat then 1 else 0) ∧
      Unchanged (fun p => p = .reg x ∨ p = .reg vF) s t) ∧
    (∃ t, exec (.subnReg x y) s = .next t ∧
      (t.reg x).toNat = ((s.reg y).toNat + 256 - (s.reg x).toNat) % 256 ∧
      (x ≠ vF → (t.reg vF).toNat = if (s.reg y).toNat > (s.reg x).toNat then 1 else 0) ∧
      Unchanged (fun p => p = .reg x ∨ p = .reg vF) s t)

/-- R98 and R100: half and double of `V[x]` alone, the bit shifted out in `VF`, under the spec's policy (D11) for every
register, and under every policy where `x` is not `VF`; with `x = 15` the result stays (R103). -/
def Obligations.ShiftsSetTheBitShiftedOut : Prop :=
  ∀ (x y : Reg) (s : State), (s.cfg.vfOperand = .sampleFlagResult ∨ x ≠ vF) →
    (∃ t, exec (.shr x y) s = .next t ∧ (t.reg x).toNat = (s.reg x).toNat / 2 ∧
      (x ≠ vF → (t.reg vF).toNat = (s.reg x).toNat % 2) ∧ Unchanged (fun p => p = .reg x ∨ p = .reg vF) s t) ∧
    (∃ t, exec (.shl x y) s = .next t ∧ (t.reg x).toNat = (s.reg x).toNat * 2 % 256 ∧
      (x ≠ vF → (t.reg vF).toNat = (s.reg x).toNat / 128) ∧ Unchanged (fun p => p = .reg x ∨ p = .reg vF) s t)

/-- The two alternatives of R103 for `8xy4`, `8xy5`, `8xy6`, `8xy7` and `8xyE` (D11, U9), for every pair of registers: under
`flag_last` the flag stays in `VF`; under `sequential_text` the result is computed from the registers re-read after the
flag was written, and stays, where `8xy4` computes its sum before either write (R96, R103; DEDUCED, log 13). -/
def Obligations.VfOperandAlternatives : Prop :=
  ∀ (x y : Reg) (s : State),
    (s.cfg.vfOperand = .flagLast →
      AnswersFlagLast (.addReg x y) x (decide ((s.reg x).toNat + (s.reg y).toNat > 255)) (s.reg x + s.reg y) s ∧
      AnswersFlagLast (.subReg x y) x (decide (s.reg y < s.reg x)) (s.reg x - s.reg y) s ∧
      AnswersFlagLast (.subnReg x y) x (decide (s.reg x < s.reg y)) (s.reg y - s.reg x) s ∧
      AnswersFlagLast (.shr x y) x ((s.reg x).getLsbD 0) (s.reg x >>> 1) s ∧
      AnswersFlagLast (.shl x y) x ((s.reg x).getLsbD 7) (s.reg x <<< 1) s) ∧
    (s.cfg.vfOperand = .sequentialText → ∀ reread : Bool → Reg → Byte,
      (∀ flag r, reread flag r = if r = vF then (if flag = true then 1 else 0) else s.reg r) →
      AnswersResultLast (.addReg x y) x (decide ((s.reg x).toNat + (s.reg y).toNat > 255)) (s.reg x + s.reg y) s ∧
      (∀ flag, flag = decide (s.reg y < s.reg x) →
        AnswersResultLast (.subReg x y) x flag (reread flag x - reread flag y) s) ∧
      (∀ flag, flag = decide (s.reg x < s.reg y) →
        AnswersResultLast (.subnReg x y) x flag (reread flag y - reread flag x) s) ∧
      (∀ flag, flag = (s.reg x).getLsbD 0 → AnswersResultLast (.shr x y) x flag (reread flag x >>> 1) s) ∧
      (∀ flag, flag = (s.reg x).getLsbD 7 → AnswersResultLast (.shl x y) x flag (reread flag x <<< 1) s))

/-- R101: a fresh free byte under the mask, for whatever byte is drawn (D17; the free byte, log 4). -/
def Obligations.RandomByteIsMasked : Prop :=
  ∀ (x : Reg) (kk : Byte) (s : State), ∃ t, exec (.rnd x kk) s = .next t ∧
    t.reg x = Config.freeByte s.draws &&& kk ∧ t.reg x &&& ~~~kk = 0 ∧ t.draws = s.draws + 1 ∧
    Unchanged (fun p => p = .reg x ∨ p = .draws) s t

/-! Address register and memory. -/

/-- R110: its encoding, and `I` takes any `nnn`. -/
def Obligations.LoadIndexTakesTheAddress : Prop :=
  ∀ (nnn : Addr) (s : State), (∀ w, IsA w 0xA000 nnn → decodeWord w = .ldI nnn) ∧
    ∃ t, exec (.ldI nnn) s = .next t ∧ t.i = nnn ∧ Unchanged (· = .index) s t

/-- R111 and R112: the sum wraps at 4096 without a flag; the whole register is multiplied by 5. Both mark a clause as
derived (no flag; no mask). -/
def Obligations.IndexArithmetic : Prop :=
  ∀ (x : Reg) (s : State),
    (∃ t, exec (.addI x) s = .next t ∧ t.i.toNat = (s.i.toNat + (s.reg x).toNat) % 4096 ∧ Unchanged (· = .index) s t) ∧
    (∃ t, exec (.ldF x) s = .next t ∧ t.i.toNat = (s.reg x).toNat * 5 ∧ Unchanged (· = .index) s t)

/-- R113 where the three cells may be written: hundreds, tens and ones at rising addresses, and no other byte. -/
def Obligations.DecimalDigitsAreStored : Prop :=
  ∀ (x : Reg) (s : State), s.i.toNat + 2 < s.cfg.memSize → (80 ≤ s.i.toNat ∨ s.cfg.fontWrite = .allow) →
    ∃ t, exec (.ldB x) s = .next t ∧
      (t.readByte s.i.toNat).toNat = (s.reg x).toNat / 100 ∧
      (t.readByte (s.i.toNat + 1)).toNat = (s.reg x).toNat / 10 % 10 ∧
      (t.readByte (s.i.toNat + 2)).toNat = (s.reg x).toNat % 10 ∧
      Unchanged (fun p => ∃ a ∈ effectiveAddrs s.i.toNat 3, p = .byte a) s t

/-- R114 where the `x + 1` cells may be written: `V[j]` at `I + j`, and no other byte; `I` is unchanged (marked derived). -/
def Obligations.RegistersAreStored : Prop :=
  ∀ (x : Reg) (s : State), s.i.toNat + x.val < s.cfg.memSize → (80 ≤ s.i.toNat ∨ s.cfg.fontWrite = .allow) →
    ∃ t, exec (.ldMemVx x) s = .next t ∧
      (∀ j : Reg, j ≤ x → t.readByte (s.i.toNat + j.val) = s.reg j) ∧
      Unchanged (fun p => ∃ a ∈ effectiveAddrs s.i.toNat (x.val + 1), p = .byte a) s t

/-- R115 where the `x + 1` cells exist: `V[j]` is loaded from `I + j`, the registers above `x` and all memory unchanged. -/
def Obligations.RegistersAreLoaded : Prop :=
  ∀ (x : Reg) (s : State), s.i.toNat + x.val < s.cfg.memSize →
    ∃ t, exec (.ldVxMem x) s = .next t ∧
      (∀ j : Reg, j ≤ x → t.reg j = s.readByte (s.i.toNat + j.val)) ∧
      Unchanged (fun p => ∃ j : Reg, j ≤ x ∧ p = .reg j) s t

/-- A store checks every address first: with one outside memory it enters `MEM_BOUNDS` with the lowest such address; else
with one in the protected font region `FONT_WRITE` with the lowest such address; and nothing is stored (R37, R38, R113,
R114, R141, R143; the spec's decisions D7, D8, D10, D22). -/
def Obligations.StoresCheckBeforeWriting : Prop :=
  ∀ (x : Reg) (s : State),
    (s.cfg.memSize ≤ s.i.toNat + 2 →
      ∃ t, exec (.ldB x) s = .next t ∧ FaultEntered s t .memBounds (max s.i.toNat s.cfg.memSize)) ∧
    (s.cfg.memSize ≤ s.i.toNat + x.val →
      ∃ t, exec (.ldMemVx x) s = .next t ∧ FaultEntered s t .memBounds (max s.i.toNat s.cfg.memSize)) ∧
    (s.i.toNat + 2 < s.cfg.memSize → s.i.toNat < 80 → s.cfg.fontWrite = .fault →
      ∃ t, exec (.ldB x) s = .next t ∧ FaultEntered s t .fontWrite s.i.toNat) ∧
    (s.i.toNat + x.val < s.cfg.memSize → s.i.toNat < 80 → s.cfg.fontWrite = .fault →
      ∃ t, exec (.ldMemVx x) s = .next t ∧ FaultEntered s t .fontWrite s.i.toNat)

/-- A read checks every address first: with one outside memory it enters `MEM_BOUNDS` with the lowest such address, and no
register or pixel changes (R36, R38, R115, R121, R141; the spec's decisions D7, D10). -/
def Obligations.ReadsCheckBeforeReading : Prop :=
  ∀ (x y : Reg) (n : Nibble) (s : State),
    (s.cfg.memSize ≤ s.i.toNat + x.val →
      ∃ t, exec (.ldVxMem x) s = .next t ∧ FaultEntered s t .memBounds (max s.i.toNat s.cfg.memSize)) ∧
    (0 < n.toNat → s.cfg.memSize ≤ s.i.toNat + (n.toNat - 1) →
      ∃ t, exec (.drw x y n) s = .next t ∧ FaultEntered s t .memBounds (max s.i.toNat s.cfg.memSize))

/-- A store into the bytes at `pc` is what the very next CPU step fetches, with nothing in between (R43, marked derived),
in either byte order (D2, log 7) and at either width of `pc` (D3, log 12). -/
def Obligations.StoreIsSeenByTheNextFetch : Prop :=
  ∀ (x : Reg) (p : Word) (s : State), s.status = .running → s.nextMove = .cpu → s.i.toNat = s.pc.toNat → 1 ≤ x.val →
    s.pc.toNat + x.val < s.cfg.memSize → (80 ≤ s.pc.toNat ∨ s.cfg.fontWrite = .allow) → s.IsAfterWord p →
    ∃ t, exec (.ldMemVx x) s = .next t ∧
      step t = exec (decodeWord (assembleWord s.cfg.fetchOrder (s.reg 0) (s.reg 1)))
        { t with pc := p, boot := .started, schedule := s.schedule.tail }

/-! Display. -/

/-- R120: every pixel is 0, and nothing else changes, `VF` included (marked derived). -/
def Obligations.ClearResetsEveryPixel : Prop :=
  ∀ s : State, ∃ t, exec .cls s = .next t ∧ (∀ r c, t.pixel r c = false) ∧
    Unchanged (fun p => ∃ r c, p = .pixel r c) s t

/-- R121 and R122 where the `n` sprite bytes exist (`n = 0` always, which R121 marks as derived): the framebuffer is XORed with
the pixels that lie under the sprite's 1 bits, wrapped modulo 32 and 64, and `VF` is 1 exactly when one of them was set. -/
def Obligations.DrawXorsTheSprite : Prop :=
  ∀ (x y : Reg) (n : Nibble) (s : State), (n.toNat = 0 ∨ s.i.toNat + (n.toNat - 1) < s.cfg.memSize) →
    ∃ t, exec (.drw x y n) s = .next t ∧
      (∀ r c, t.pixel r c = (s.pixel r c ^^ underSprite (s.reg x) (s.reg y) (s.readBytes s.i.toNat n.toNat) r c)) ∧
      (t.reg vF = if ∃ r c, underSprite (s.reg x) (s.reg y) (s.readBytes s.i.toNat n.toNat) r c = true ∧
        s.pixel r c = true then 1 else 0) ∧
      Unchanged (fun p => p = .reg vF ∨ ∃ r c, p = .pixel r c) s t

/-- R123 (b), marked derived there: the second of two equal draws restores every pixel, and erases exactly when the first one
turned some pixel on. -/
def Obligations.DrawTwiceRestores : Prop :=
  ∀ (px py : Byte) (sprite : List Byte) (fb : Framebuffer), sprite.length ≤ 15 →
    (∀ r c, pixelOf (drawSprite px py sprite (drawSprite px py sprite fb).fb).fb r c = pixelOf fb r c) ∧
    ((drawSprite px py sprite (drawSprite px py sprite fb).fb).erased = true ↔
      ∃ r c, pixelOf fb r c = false ∧ pixelOf (drawSprite px py sprite fb).fb r c = true)

/-- R123 (d): coordinates that agree modulo 64 and modulo 32 draw the same, however long the sprite. -/
def Obligations.DrawCoordinatesWrap : Prop :=
  ∀ (px py qx qy : Byte) (sprite : List Byte) (fb : Framebuffer),
    px.toNat % 64 = qx.toNat % 64 → py.toNat % 32 = qy.toNat % 32 →
    drawSprite px py sprite fb = drawSprite qx qy sprite fb

/-! Keys and timers. -/

/-- R130 and R131 for an index that names a key, under every policy: the level of key `V[x]` decides. The skip is in
`PCLEN` bits (the spec's decision D3, log 12). -/
def Obligations.KeySkipsTestTheLevel : Prop :=
  ∀ (x : Reg) (s : State) (h : (s.reg x).toNat < 16),
    AnswersSkip (.skp x) (s.held ⟨(s.reg x).toNat, h⟩ = true) s ∧
    AnswersSkip (.sknp x) (s.held ⟨(s.reg x).toNat, h⟩ = false) s

/-- R130 and R131 for an index above 15, by policy (the spec's decisions D9, D10): the fault; the index modulo 16; never
held. The skip is in `PCLEN` bits (the spec's decision D3, log 12). -/
def Obligations.KeyIndexAboveFifteen : Prop :=
  ∀ (x : Reg) (s : State), 15 < (s.reg x).toNat →
    (s.cfg.keyIndex = .fault →
      (∃ t, exec (.skp x) s = .next t ∧ FaultEntered s t .keyIndex (s.reg x).toNat) ∧
      (∃ t, exec (.sknp x) s = .next t ∧ FaultEntered s t .keyIndex (s.reg x).toNat)) ∧
    (s.cfg.keyIndex = .mask4 → ∀ k : Key, k.val = (s.reg x).toNat % 16 →
      AnswersSkip (.skp x) (s.held k = true) s ∧ AnswersSkip (.sknp x) (s.held k = false) s) ∧
    (s.cfg.keyIndex = .notPressed → AnswersSkip (.skp x) False s ∧ AnswersSkip (.sknp x) True s)

/-- R132, R135 and R136: the timers as register transfers. -/
def Obligations.TimerTransfers : Prop :=
  ∀ (x : Reg) (s : State),
    (∃ t, exec (.ldVxDt x) s = .next t ∧ t.reg x = s.dt ∧ Unchanged (· = .reg x) s t) ∧
    (∃ t, exec (.ldDtVx x) s = .next t ∧ t.dt = s.reg x ∧ Unchanged (· = .dt) s t) ∧
    (∃ t, exec (.ldStVx x) s = .next t ∧ t.st = s.reg x ∧ Unchanged (· = .st) s t)

/-- R133: `Fx0A` begins its wait whatever keys are held, clearing the flag and writing no register (the spec's decision D12). -/
def Obligations.WaitBegins : Prop :=
  ∀ (x : Reg) (s : State), ∃ t, exec (.ldVxK x) s = .next t ∧ t.status = .waitKey x ∧ t.keyFlag = false ∧
    Unchanged (fun p => p = .status ∨ p = .keyFlag) s t

/-! The other agents. -/

/-- R147, in every state: both counters one less, never below 0, and nothing else (that one step does both is the spec's
decision D14). -/
def Obligations.TickCountsBothTimersDown : Prop :=
  ∀ (s : State) (rest : List Move), s.schedule = .tick :: rest →
    ∃ t, step s = .next t ∧ t.dt.toNat = s.dt.toNat - 1 ∧ t.st.toNat = s.st.toNat - 1 ∧ t.schedule = rest ∧
      Unchanged (fun p => p = .dt ∨ p = .st ∨ p = .schedule) s t

/-- R148 and R149, in every state: a press sets its key and raises the flag, a release clears its key and leaves the flag; and
nothing but a press (or `Reset`, R133, R170, the spec's decision D25) lifts the hold of a waiting CPU (R137). The schedule, which
each move leaves, and the idle move of a held CPU are the model's DESIGN CHOICE (log 1, log 2). -/
def Obligations.PressAndReleaseSetTheLatch : Prop :=
  ∀ (s : State) (k : Key) (rest : List Move),
    (s.schedule = .press k :: rest → ∃ t, step s = .next t ∧ t.held k = true ∧ t.keyFlag = true ∧ t.schedule = rest ∧
      Unchanged (fun p => p = .key k ∨ p = .keyFlag ∨ p = .schedule) s t) ∧
    (s.schedule = .release k :: rest → ∃ t, step s = .next t ∧ t.held k = false ∧ t.schedule = rest ∧
      Unchanged (fun p => p = .key k ∨ p = .schedule) s t) ∧
    (∀ x t, s.status = .waitKey x → s.keyFlag = false → (∀ j, s.nextMove ≠ .press j) → s.nextMove ≠ .reset →
      step s = .next t → t.status = .waitKey x ∧ t.keyFlag = false)

/-- R151, in every state: the whole grid goes out and the machine does not change (D24; that outputs are recorded is the
model's DESIGN CHOICE, log 15). -/
def Obligations.SnapshotCopiesTheGrid : Prop :=
  ∀ (s : State) (rest : List Move), s.schedule = .snapshot :: rest →
    ∃ t, step s = .next t ∧ t.outputs = s.outputs ++ [.frame s.fb] ∧ t.schedule = rest ∧
      Unchanged (fun p => p = .outputs ∨ p = .schedule) s t

/-- R172 and R173: before any CPU step or other `Load` since `Reset`, the image is copied from `0x200` on, cut at the end of
memory, and nothing else changes; the guard and the cut are the spec's decision D16 (log 14). -/
def Obligations.LoadCopiesTheImage : Prop :=
  ∀ (s : State) (image : List Byte) (rest : List Move), s.schedule = .load image :: rest → s.boot = .fresh →
    ∃ t, step s = .next t ∧
      (∀ j, 0x200 + j < s.cfg.memSize → (h : j < image.length) → t.readByte (0x200 + j) = image[j]) ∧
      Unchanged (fun p => p = .boot ∨ p = .schedule ∨
        ∃ j, j < image.length ∧ 0x200 + j < s.cfg.memSize ∧ p = .byte (0x200 + j)) s t

/-- R170, in every state: every part is as in `State.reset`, except what is no part of the machine (log 16). -/
def Obligations.ResetRestoresTheMachine : Prop :=
  ∀ (s : State) (rest : List Move), s.schedule = .reset :: rest →
    ∃ t, step s = .next t ∧ t.mem = [] ∧
      Unchanged (fun p => p = .schedule ∨ p = .draws ∨ p = .outputs ∨ p = .cfg ∨ ∃ a, p = .byte a) State.reset t ∧
      t.schedule = rest ∧ Unchanged (fun p => ¬ (p = .draws ∨ p = .outputs ∨ p = .cfg)) s t

/-- R22 for the two values the document itself gives, `pc` and the placing of the font, and the spec's decided zeros (D15,
D16, log 8, log 10); the font bytes are the configuration's (D21, log 6). -/
def Obligations.ResetValues : Prop :=
  State.reset.pc = 0x200 ∧ (∀ (a : Nat) (h : a < 80), State.reset.readByte a = State.reset.cfg.font[a]) ∧
    (∀ a, 80 ≤ a → State.reset.readByte a = 0) ∧ (∀ r, State.reset.reg r = 0) ∧ State.reset.i = 0 ∧
    State.reset.sp = 0 ∧ (∀ j, State.reset.slot j = 0) ∧ State.reset.dt = 0 ∧ State.reset.st = 0 ∧
    (∀ k, State.reset.held k = false) ∧ State.reset.keyFlag = false ∧ (∀ r c, State.reset.pixel r c = false) ∧
    State.reset.status = .running ∧ State.reset.fault = ⟨.none, 0, 0⟩

/-! Invariants. -/

/-- Every step of every agent keeps the invariant: canonical memory, a fault recorded exactly while faulted, `pc` at most
4350, stack slots at most `MEM_SIZE`, both within `PCLEN` bits (R5, R14, R15, R20, R80, R142). -/
def Obligations.StepKeepsTheInvariant : Prop := ∀ s t : State, s.Inv → step s = .next t → t.Inv

/-- The invariant holds at reset. -/
def Obligations.ResetHasTheInvariant : Prop := State.reset.Inv

/-- With the spec's font policy no step of any agent changes a font byte, `Load` included (R31, R37, R173; the spec's decision
D8), from any state at all. -/
def Obligations.StepKeepsTheFont : Prop :=
  ∀ s t : State, s.cfg.fontWrite = .fault → s.FontIntact → step s = .next t → t.FontIntact

/-- No step changes a parameter (R5, R10; that State carries them is the model's DESIGN CHOICE, log 5). -/
def Obligations.StepKeepsTheConfiguration : Prop := ∀ s t : State, step s = .next t → t.cfg = s.cfg

/-! Rules about the whole machine. -/

/-- Every instruction either changes nothing but what it may write, or enters a fault and changes nothing but the record and
the status (R12, R13, R15, R18, R24, R30, R124, R141). -/
def Obligations.InstructionsKeepTheirFrame : Prop :=
  ∀ (i : Instr) (s t : State), exec i s = .next t →
    Unchanged (mayWrite i s) s t ∨ ∃ cause info, cause ≠ .none ∧ FaultEntered s t cause info

/-- Once the run is over, nothing but `Reset` changes `STATUS` or `FAULT` (R67, R142, R154). -/
def Obligations.OnlyResetLeavesTheEnd : Prop :=
  ∀ s t : State, s.status = .halted ∨ s.status = .faulted → s.nextMove ≠ .reset → step s = .next t →
    t.status = s.status ∧ t.fault = s.fault

/-- Who writes what (R17, R24, R147): only `Press` and `Release` of it change a key (and `Reset`), only `Press` raises `KEYFLAG`,
and only the CPU (and `Reset`) clears it; only the CPU, `Load` and `Reset` change memory; only the CPU and `Reset` change
registers, stack and pixels; only the CPU, `Tick` and `Reset` change a timer. -/
def Obligations.AgentsKeepTheirOwnership : Prop :=
  ∀ s t : State, step s = .next t →
    (∀ k, s.nextMove ≠ .press k → s.nextMove ≠ .release k → s.nextMove ≠ .reset → t.held k = s.held k) ∧
    ((∀ k, s.nextMove ≠ .press k) → t.keyFlag = true → s.keyFlag = true) ∧
    (s.nextMove ≠ .cpu → s.nextMove ≠ .reset →
      (s.keyFlag = true → t.keyFlag = true) ∧
      (∀ r, t.reg r = s.reg r) ∧ t.i = s.i ∧ t.pc = s.pc ∧ t.sp = s.sp ∧ (∀ j, t.slot j = s.slot j) ∧
      (∀ r c, t.pixel r c = s.pixel r c) ∧ t.status = s.status ∧ t.fault = s.fault ∧
      ((∀ image, s.nextMove ≠ .load image) → ∀ a, t.readByte a = s.readByte a) ∧
      (s.nextMove ≠ .tick → t.dt = s.dt ∧ t.st = s.st))

/-- Nothing reads `ST` (R16, R156): two machines that differ in `ST` alone take steps that stop alike or differ in `ST`
alone. -/
def Obligations.SoundTimerIsNeverRead : Prop :=
  ∀ (s : State) (a : Byte),
    (∀ f, step s = .fault f → step { s with st := a } = .fault f) ∧
    ∀ t, step s = .next t → ∃ b, step { s with st := a } = .next { t with st := b }

/-- Nothing reads what has gone out (R151, R153): the machine cannot tell whether a snapshot was taken. That outputs are a list
to which steps only append, kept even by `Reset`, is the model's DESIGN CHOICE (log 15, log 16). -/
def Obligations.OutputsAreNeverRead : Prop :=
  ∀ (s : State) (o : List Output),
    (∀ f, step s = .fault f → step { s with outputs := o } = .fault f) ∧
    ∀ t, step s = .next t → ∃ more, t.outputs = s.outputs ++ more ∧
      step { s with outputs := o } = .next { t with outputs := o ++ more }
end

