-- ==== Sys2Proof/Laws/State.lean ====
section
/-! SUPPORT. The small lemmas of the state's updates: what each field and each accessor is after each of them. A later proof
rewrites with these and unfolds no update. -/

namespace Sys2Proof.Machine

/-! After `setReg`. -/

@[simp] theorem State.setReg_v (s : State) (r : Reg) (b : Byte) : (s.setReg r b).v = s.v.set r.val b r.isLt := rfl
@[simp] theorem State.setReg_i (s : State) (r : Reg) (b : Byte) : (s.setReg r b).i = s.i := rfl
@[simp] theorem State.setReg_pc (s : State) (r : Reg) (b : Byte) : (s.setReg r b).pc = s.pc := rfl
@[simp] theorem State.setReg_sp (s : State) (r : Reg) (b : Byte) : (s.setReg r b).sp = s.sp := rfl
@[simp] theorem State.setReg_stack (s : State) (r : Reg) (b : Byte) : (s.setReg r b).stack = s.stack := rfl
@[simp] theorem State.setReg_dt (s : State) (r : Reg) (b : Byte) : (s.setReg r b).dt = s.dt := rfl
@[simp] theorem State.setReg_st (s : State) (r : Reg) (b : Byte) : (s.setReg r b).st = s.st := rfl
@[simp] theorem State.setReg_key (s : State) (r : Reg) (b : Byte) : (s.setReg r b).key = s.key := rfl
@[simp] theorem State.setReg_keyFlag (s : State) (r : Reg) (b : Byte) : (s.setReg r b).keyFlag = s.keyFlag := rfl
@[simp] theorem State.setReg_fb (s : State) (r : Reg) (b : Byte) : (s.setReg r b).fb = s.fb := rfl
@[simp] theorem State.setReg_mem (s : State) (r : Reg) (b : Byte) : (s.setReg r b).mem = s.mem := rfl
@[simp] theorem State.setReg_status (s : State) (r : Reg) (b : Byte) : (s.setReg r b).status = s.status := rfl
@[simp] theorem State.setReg_fault (s : State) (r : Reg) (b : Byte) : (s.setReg r b).fault = s.fault := rfl
@[simp] theorem State.setReg_boot (s : State) (r : Reg) (b : Byte) : (s.setReg r b).boot = s.boot := rfl
@[simp] theorem State.setReg_schedule (s : State) (r : Reg) (b : Byte) : (s.setReg r b).schedule = s.schedule := rfl
@[simp] theorem State.setReg_draws (s : State) (r : Reg) (b : Byte) : (s.setReg r b).draws = s.draws := rfl
@[simp] theorem State.setReg_outputs (s : State) (r : Reg) (b : Byte) : (s.setReg r b).outputs = s.outputs := rfl
@[simp] theorem State.setReg_cfg (s : State) (r : Reg) (b : Byte) : (s.setReg r b).cfg = s.cfg := rfl
@[simp] theorem State.setReg_slot (s : State) (r : Reg) (b : Byte) (j : Fin 16) : (s.setReg r b).slot j = s.slot j := rfl
@[simp] theorem State.setReg_held (s : State) (r : Reg) (b : Byte) (k' : Key) : (s.setReg r b).held k' = s.held k' := rfl
@[simp] theorem State.setReg_pixel (s : State) (r : Reg) (b : Byte) (r' : Fin 32) (c' : Fin 64) : (s.setReg r b).pixel r' c' = s.pixel r' c' := rfl
@[simp] theorem State.setReg_readByte (s : State) (r : Reg) (b : Byte) (a' : Nat) : (s.setReg r b).readByte a' = s.readByte a' := rfl

/-! After `writeByte`. -/

@[simp] theorem State.writeByte_v (s : State) (a : Nat) (b : Byte) : (s.writeByte a b).v = s.v := rfl
@[simp] theorem State.writeByte_i (s : State) (a : Nat) (b : Byte) : (s.writeByte a b).i = s.i := rfl
@[simp] theorem State.writeByte_pc (s : State) (a : Nat) (b : Byte) : (s.writeByte a b).pc = s.pc := rfl
@[simp] theorem State.writeByte_sp (s : State) (a : Nat) (b : Byte) : (s.writeByte a b).sp = s.sp := rfl
@[simp] theorem State.writeByte_stack (s : State) (a : Nat) (b : Byte) : (s.writeByte a b).stack = s.stack := rfl
@[simp] theorem State.writeByte_dt (s : State) (a : Nat) (b : Byte) : (s.writeByte a b).dt = s.dt := rfl
@[simp] theorem State.writeByte_st (s : State) (a : Nat) (b : Byte) : (s.writeByte a b).st = s.st := rfl
@[simp] theorem State.writeByte_key (s : State) (a : Nat) (b : Byte) : (s.writeByte a b).key = s.key := rfl
@[simp] theorem State.writeByte_keyFlag (s : State) (a : Nat) (b : Byte) : (s.writeByte a b).keyFlag = s.keyFlag := rfl
@[simp] theorem State.writeByte_fb (s : State) (a : Nat) (b : Byte) : (s.writeByte a b).fb = s.fb := rfl
@[simp] theorem State.writeByte_mem (s : State) (a : Nat) (b : Byte) : (s.writeByte a b).mem = s.mem.write s.cfg a b := rfl
@[simp] theorem State.writeByte_status (s : State) (a : Nat) (b : Byte) : (s.writeByte a b).status = s.status := rfl
@[simp] theorem State.writeByte_fault (s : State) (a : Nat) (b : Byte) : (s.writeByte a b).fault = s.fault := rfl
@[simp] theorem State.writeByte_boot (s : State) (a : Nat) (b : Byte) : (s.writeByte a b).boot = s.boot := rfl
@[simp] theorem State.writeByte_schedule (s : State) (a : Nat) (b : Byte) : (s.writeByte a b).schedule = s.schedule := rfl
@[simp] theorem State.writeByte_draws (s : State) (a : Nat) (b : Byte) : (s.writeByte a b).draws = s.draws := rfl
@[simp] theorem State.writeByte_outputs (s : State) (a : Nat) (b : Byte) : (s.writeByte a b).outputs = s.outputs := rfl
@[simp] theorem State.writeByte_cfg (s : State) (a : Nat) (b : Byte) : (s.writeByte a b).cfg = s.cfg := rfl
@[simp] theorem State.writeByte_reg (s : State) (a : Nat) (b : Byte) (r' : Reg) : (s.writeByte a b).reg r' = s.reg r' := rfl
@[simp] theorem State.writeByte_slot (s : State) (a : Nat) (b : Byte) (j : Fin 16) : (s.writeByte a b).slot j = s.slot j := rfl
@[simp] theorem State.writeByte_held (s : State) (a : Nat) (b : Byte) (k' : Key) : (s.writeByte a b).held k' = s.held k' := rfl
@[simp] theorem State.writeByte_pixel (s : State) (a : Nat) (b : Byte) (r' : Fin 32) (c' : Fin 64) : (s.writeByte a b).pixel r' c' = s.pixel r' c' := rfl

/-! After `raiseAt`. -/

@[simp] theorem State.raiseAt_v (s : State) (a : Word) (cause : FaultCause) (info : Nat) : (s.raiseAt a cause info).v = s.v := rfl
@[simp] theorem State.raiseAt_i (s : State) (a : Word) (cause : FaultCause) (info : Nat) : (s.raiseAt a cause info).i = s.i := rfl
@[simp] theorem State.raiseAt_pc (s : State) (a : Word) (cause : FaultCause) (info : Nat) : (s.raiseAt a cause info).pc = s.pc := rfl
@[simp] theorem State.raiseAt_sp (s : State) (a : Word) (cause : FaultCause) (info : Nat) : (s.raiseAt a cause info).sp = s.sp := rfl
@[simp] theorem State.raiseAt_stack (s : State) (a : Word) (cause : FaultCause) (info : Nat) : (s.raiseAt a cause info).stack = s.stack := rfl
@[simp] theorem State.raiseAt_dt (s : State) (a : Word) (cause : FaultCause) (info : Nat) : (s.raiseAt a cause info).dt = s.dt := rfl
@[simp] theorem State.raiseAt_st (s : State) (a : Word) (cause : FaultCause) (info : Nat) : (s.raiseAt a cause info).st = s.st := rfl
@[simp] theorem State.raiseAt_key (s : State) (a : Word) (cause : FaultCause) (info : Nat) : (s.raiseAt a cause info).key = s.key := rfl
@[simp] theorem State.raiseAt_keyFlag (s : State) (a : Word) (cause : FaultCause) (info : Nat) : (s.raiseAt a cause info).keyFlag = s.keyFlag := rfl
@[simp] theorem State.raiseAt_fb (s : State) (a : Word) (cause : FaultCause) (info : Nat) : (s.raiseAt a cause info).fb = s.fb := rfl
@[simp] theorem State.raiseAt_mem (s : State) (a : Word) (cause : FaultCause) (info : Nat) : (s.raiseAt a cause info).mem = s.mem := rfl
@[simp] theorem State.raiseAt_status (s : State) (a : Word) (cause : FaultCause) (info : Nat) : (s.raiseAt a cause info).status = .faulted := rfl
@[simp] theorem State.raiseAt_fault (s : State) (a : Word) (cause : FaultCause) (info : Nat) : (s.raiseAt a cause info).fault = ⟨cause, a, BitVec.ofNat 16 info⟩ := rfl
@[simp] theorem State.raiseAt_boot (s : State) (a : Word) (cause : FaultCause) (info : Nat) : (s.raiseAt a cause info).boot = s.boot := rfl
@[simp] theorem State.raiseAt_schedule (s : State) (a : Word) (cause : FaultCause) (info : Nat) : (s.raiseAt a cause info).schedule = s.schedule := rfl
@[simp] theorem State.raiseAt_draws (s : State) (a : Word) (cause : FaultCause) (info : Nat) : (s.raiseAt a cause info).draws = s.draws := rfl
@[simp] theorem State.raiseAt_outputs (s : State) (a : Word) (cause : FaultCause) (info : Nat) : (s.raiseAt a cause info).outputs = s.outputs := rfl
@[simp] theorem State.raiseAt_cfg (s : State) (a : Word) (cause : FaultCause) (info : Nat) : (s.raiseAt a cause info).cfg = s.cfg := rfl
@[simp] theorem State.raiseAt_reg (s : State) (a : Word) (cause : FaultCause) (info : Nat) (r' : Reg) : (s.raiseAt a cause info).reg r' = s.reg r' := rfl
@[simp] theorem State.raiseAt_slot (s : State) (a : Word) (cause : FaultCause) (info : Nat) (j : Fin 16) : (s.raiseAt a cause info).slot j = s.slot j := rfl
@[simp] theorem State.raiseAt_held (s : State) (a : Word) (cause : FaultCause) (info : Nat) (k' : Key) : (s.raiseAt a cause info).held k' = s.held k' := rfl
@[simp] theorem State.raiseAt_pixel (s : State) (a : Word) (cause : FaultCause) (info : Nat) (r' : Fin 32) (c' : Fin 64) : (s.raiseAt a cause info).pixel r' c' = s.pixel r' c' := rfl
@[simp] theorem State.raiseAt_readByte (s : State) (a : Word) (cause : FaultCause) (info : Nat) (a' : Nat) : (s.raiseAt a cause info).readByte a' = s.readByte a' := rfl

/-! After `raise`. -/

@[simp] theorem State.raise_v (s : State) (cause : FaultCause) (info : Nat) : (s.raise cause info).v = s.v := rfl
@[simp] theorem State.raise_i (s : State) (cause : FaultCause) (info : Nat) : (s.raise cause info).i = s.i := rfl
@[simp] theorem State.raise_pc (s : State) (cause : FaultCause) (info : Nat) : (s.raise cause info).pc = s.pc := rfl
@[simp] theorem State.raise_sp (s : State) (cause : FaultCause) (info : Nat) : (s.raise cause info).sp = s.sp := rfl
@[simp] theorem State.raise_stack (s : State) (cause : FaultCause) (info : Nat) : (s.raise cause info).stack = s.stack := rfl
@[simp] theorem State.raise_dt (s : State) (cause : FaultCause) (info : Nat) : (s.raise cause info).dt = s.dt := rfl
@[simp] theorem State.raise_st (s : State) (cause : FaultCause) (info : Nat) : (s.raise cause info).st = s.st := rfl
@[simp] theorem State.raise_key (s : State) (cause : FaultCause) (info : Nat) : (s.raise cause info).key = s.key := rfl
@[simp] theorem State.raise_keyFlag (s : State) (cause : FaultCause) (info : Nat) : (s.raise cause info).keyFlag = s.keyFlag := rfl
@[simp] theorem State.raise_fb (s : State) (cause : FaultCause) (info : Nat) : (s.raise cause info).fb = s.fb := rfl
@[simp] theorem State.raise_mem (s : State) (cause : FaultCause) (info : Nat) : (s.raise cause info).mem = s.mem := rfl
@[simp] theorem State.raise_status (s : State) (cause : FaultCause) (info : Nat) : (s.raise cause info).status = .faulted := rfl
@[simp] theorem State.raise_fault (s : State) (cause : FaultCause) (info : Nat) : (s.raise cause info).fault = ⟨cause, s.instrAddr, BitVec.ofNat 16 info⟩ := rfl
@[simp] theorem State.raise_boot (s : State) (cause : FaultCause) (info : Nat) : (s.raise cause info).boot = s.boot := rfl
@[simp] theorem State.raise_schedule (s : State) (cause : FaultCause) (info : Nat) : (s.raise cause info).schedule = s.schedule := rfl
@[simp] theorem State.raise_draws (s : State) (cause : FaultCause) (info : Nat) : (s.raise cause info).draws = s.draws := rfl
@[simp] theorem State.raise_outputs (s : State) (cause : FaultCause) (info : Nat) : (s.raise cause info).outputs = s.outputs := rfl
@[simp] theorem State.raise_cfg (s : State) (cause : FaultCause) (info : Nat) : (s.raise cause info).cfg = s.cfg := rfl
@[simp] theorem State.raise_reg (s : State) (cause : FaultCause) (info : Nat) (r' : Reg) : (s.raise cause info).reg r' = s.reg r' := rfl
@[simp] theorem State.raise_slot (s : State) (cause : FaultCause) (info : Nat) (j : Fin 16) : (s.raise cause info).slot j = s.slot j := rfl
@[simp] theorem State.raise_held (s : State) (cause : FaultCause) (info : Nat) (k' : Key) : (s.raise cause info).held k' = s.held k' := rfl
@[simp] theorem State.raise_pixel (s : State) (cause : FaultCause) (info : Nat) (r' : Fin 32) (c' : Fin 64) : (s.raise cause info).pixel r' c' = s.pixel r' c' := rfl
@[simp] theorem State.raise_readByte (s : State) (cause : FaultCause) (info : Nat) (a' : Nat) : (s.raise cause info).readByte a' = s.readByte a' := rfl

/-! After `jump`. -/

@[simp] theorem State.jump_v (s : State) (target : Word) : (s.jump target).v = s.v := rfl
@[simp] theorem State.jump_i (s : State) (target : Word) : (s.jump target).i = s.i := rfl
@[simp] theorem State.jump_pc (s : State) (target : Word) : (s.jump target).pc = target := rfl
@[simp] theorem State.jump_sp (s : State) (target : Word) : (s.jump target).sp = s.sp := rfl
@[simp] theorem State.jump_stack (s : State) (target : Word) : (s.jump target).stack = s.stack := rfl
@[simp] theorem State.jump_dt (s : State) (target : Word) : (s.jump target).dt = s.dt := rfl
@[simp] theorem State.jump_st (s : State) (target : Word) : (s.jump target).st = s.st := rfl
@[simp] theorem State.jump_key (s : State) (target : Word) : (s.jump target).key = s.key := rfl
@[simp] theorem State.jump_keyFlag (s : State) (target : Word) : (s.jump target).keyFlag = s.keyFlag := rfl
@[simp] theorem State.jump_fb (s : State) (target : Word) : (s.jump target).fb = s.fb := rfl
@[simp] theorem State.jump_mem (s : State) (target : Word) : (s.jump target).mem = s.mem := rfl
@[simp] theorem State.jump_status (s : State) (target : Word) : (s.jump target).status = s.status := rfl
@[simp] theorem State.jump_fault (s : State) (target : Word) : (s.jump target).fault = s.fault := rfl
@[simp] theorem State.jump_boot (s : State) (target : Word) : (s.jump target).boot = s.boot := rfl
@[simp] theorem State.jump_schedule (s : State) (target : Word) : (s.jump target).schedule = s.schedule := rfl
@[simp] theorem State.jump_draws (s : State) (target : Word) : (s.jump target).draws = s.draws := rfl
@[simp] theorem State.jump_outputs (s : State) (target : Word) : (s.jump target).outputs = s.outputs := rfl
@[simp] theorem State.jump_cfg (s : State) (target : Word) : (s.jump target).cfg = s.cfg := rfl
@[simp] theorem State.jump_reg (s : State) (target : Word) (r' : Reg) : (s.jump target).reg r' = s.reg r' := rfl
@[simp] theorem State.jump_slot (s : State) (target : Word) (j : Fin 16) : (s.jump target).slot j = s.slot j := rfl
@[simp] theorem State.jump_held (s : State) (target : Word) (k' : Key) : (s.jump target).held k' = s.held k' := rfl
@[simp] theorem State.jump_pixel (s : State) (target : Word) (r' : Fin 32) (c' : Fin 64) : (s.jump target).pixel r' c' = s.pixel r' c' := rfl
@[simp] theorem State.jump_readByte (s : State) (target : Word) (a' : Nat) : (s.jump target).readByte a' = s.readByte a' := rfl

/-! After `writeFlagResult`. -/

@[simp] theorem State.writeFlagResult_i (s : State) (x : Reg) (flag : Bool) (result : Byte) : (s.writeFlagResult x flag result).i = s.i := rfl
@[simp] theorem State.writeFlagResult_pc (s : State) (x : Reg) (flag : Bool) (result : Byte) : (s.writeFlagResult x flag result).pc = s.pc := rfl
@[simp] theorem State.writeFlagResult_sp (s : State) (x : Reg) (flag : Bool) (result : Byte) : (s.writeFlagResult x flag result).sp = s.sp := rfl
@[simp] theorem State.writeFlagResult_stack (s : State) (x : Reg) (flag : Bool) (result : Byte) : (s.writeFlagResult x flag result).stack = s.stack := rfl
@[simp] theorem State.writeFlagResult_dt (s : State) (x : Reg) (flag : Bool) (result : Byte) : (s.writeFlagResult x flag result).dt = s.dt := rfl
@[simp] theorem State.writeFlagResult_st (s : State) (x : Reg) (flag : Bool) (result : Byte) : (s.writeFlagResult x flag result).st = s.st := rfl
@[simp] theorem State.writeFlagResult_key (s : State) (x : Reg) (flag : Bool) (result : Byte) : (s.writeFlagResult x flag result).key = s.key := rfl
@[simp] theorem State.writeFlagResult_keyFlag (s : State) (x : Reg) (flag : Bool) (result : Byte) : (s.writeFlagResult x flag result).keyFlag = s.keyFlag := rfl
@[simp] theorem State.writeFlagResult_fb (s : State) (x : Reg) (flag : Bool) (result : Byte) : (s.writeFlagResult x flag result).fb = s.fb := rfl
@[simp] theorem State.writeFlagResult_mem (s : State) (x : Reg) (flag : Bool) (result : Byte) : (s.writeFlagResult x flag result).mem = s.mem := rfl
@[simp] theorem State.writeFlagResult_status (s : State) (x : Reg) (flag : Bool) (result : Byte) : (s.writeFlagResult x flag result).status = s.status := rfl
@[simp] theorem State.writeFlagResult_fault (s : State) (x : Reg) (flag : Bool) (result : Byte) : (s.writeFlagResult x flag result).fault = s.fault := rfl
@[simp] theorem State.writeFlagResult_boot (s : State) (x : Reg) (flag : Bool) (result : Byte) : (s.writeFlagResult x flag result).boot = s.boot := rfl
@[simp] theorem State.writeFlagResult_schedule (s : State) (x : Reg) (flag : Bool) (result : Byte) : (s.writeFlagResult x flag result).schedule = s.schedule := rfl
@[simp] theorem State.writeFlagResult_draws (s : State) (x : Reg) (flag : Bool) (result : Byte) : (s.writeFlagResult x flag result).draws = s.draws := rfl
@[simp] theorem State.writeFlagResult_outputs (s : State) (x : Reg) (flag : Bool) (result : Byte) : (s.writeFlagResult x flag result).outputs = s.outputs := rfl
@[simp] theorem State.writeFlagResult_cfg (s : State) (x : Reg) (flag : Bool) (result : Byte) : (s.writeFlagResult x flag result).cfg = s.cfg := rfl
@[simp] theorem State.writeFlagResult_slot (s : State) (x : Reg) (flag : Bool) (result : Byte) (j : Fin 16) : (s.writeFlagResult x flag result).slot j = s.slot j := rfl
@[simp] theorem State.writeFlagResult_held (s : State) (x : Reg) (flag : Bool) (result : Byte) (k' : Key) : (s.writeFlagResult x flag result).held k' = s.held k' := rfl
@[simp] theorem State.writeFlagResult_pixel (s : State) (x : Reg) (flag : Bool) (result : Byte) (r' : Fin 32) (c' : Fin 64) : (s.writeFlagResult x flag result).pixel r' c' = s.pixel r' c' := rfl
@[simp] theorem State.writeFlagResult_readByte (s : State) (x : Reg) (flag : Bool) (result : Byte) (a' : Nat) : (s.writeFlagResult x flag result).readByte a' = s.readByte a' := rfl

/-! After `loadBlock`. -/

@[simp] theorem State.loadBlock_i (s : State) (x : Reg) (base : Nat) : (s.loadBlock x base).i = s.i := rfl
@[simp] theorem State.loadBlock_pc (s : State) (x : Reg) (base : Nat) : (s.loadBlock x base).pc = s.pc := rfl
@[simp] theorem State.loadBlock_sp (s : State) (x : Reg) (base : Nat) : (s.loadBlock x base).sp = s.sp := rfl
@[simp] theorem State.loadBlock_stack (s : State) (x : Reg) (base : Nat) : (s.loadBlock x base).stack = s.stack := rfl
@[simp] theorem State.loadBlock_dt (s : State) (x : Reg) (base : Nat) : (s.loadBlock x base).dt = s.dt := rfl
@[simp] theorem State.loadBlock_st (s : State) (x : Reg) (base : Nat) : (s.loadBlock x base).st = s.st := rfl
@[simp] theorem State.loadBlock_key (s : State) (x : Reg) (base : Nat) : (s.loadBlock x base).key = s.key := rfl
@[simp] theorem State.loadBlock_keyFlag (s : State) (x : Reg) (base : Nat) : (s.loadBlock x base).keyFlag = s.keyFlag := rfl
@[simp] theorem State.loadBlock_fb (s : State) (x : Reg) (base : Nat) : (s.loadBlock x base).fb = s.fb := rfl
@[simp] theorem State.loadBlock_mem (s : State) (x : Reg) (base : Nat) : (s.loadBlock x base).mem = s.mem := rfl
@[simp] theorem State.loadBlock_status (s : State) (x : Reg) (base : Nat) : (s.loadBlock x base).status = s.status := rfl
@[simp] theorem State.loadBlock_fault (s : State) (x : Reg) (base : Nat) : (s.loadBlock x base).fault = s.fault := rfl
@[simp] theorem State.loadBlock_boot (s : State) (x : Reg) (base : Nat) : (s.loadBlock x base).boot = s.boot := rfl
@[simp] theorem State.loadBlock_schedule (s : State) (x : Reg) (base : Nat) : (s.loadBlock x base).schedule = s.schedule := rfl
@[simp] theorem State.loadBlock_draws (s : State) (x : Reg) (base : Nat) : (s.loadBlock x base).draws = s.draws := rfl
@[simp] theorem State.loadBlock_outputs (s : State) (x : Reg) (base : Nat) : (s.loadBlock x base).outputs = s.outputs := rfl
@[simp] theorem State.loadBlock_cfg (s : State) (x : Reg) (base : Nat) : (s.loadBlock x base).cfg = s.cfg := rfl
@[simp] theorem State.loadBlock_slot (s : State) (x : Reg) (base : Nat) (j : Fin 16) : (s.loadBlock x base).slot j = s.slot j := rfl
@[simp] theorem State.loadBlock_held (s : State) (x : Reg) (base : Nat) (k' : Key) : (s.loadBlock x base).held k' = s.held k' := rfl
@[simp] theorem State.loadBlock_pixel (s : State) (x : Reg) (base : Nat) (r' : Fin 32) (c' : Fin 64) : (s.loadBlock x base).pixel r' c' = s.pixel r' c' := rfl
@[simp] theorem State.loadBlock_readByte (s : State) (x : Reg) (base : Nat) (a' : Nat) : (s.loadBlock x base).readByte a' = s.readByte a' := rfl

/-! After `begun`. -/

@[simp] theorem State.begun_v (s : State) : (s.begun).v = s.v := rfl
@[simp] theorem State.begun_i (s : State) : (s.begun).i = s.i := rfl
@[simp] theorem State.begun_pc (s : State) : (s.begun).pc = s.pc := rfl
@[simp] theorem State.begun_sp (s : State) : (s.begun).sp = s.sp := rfl
@[simp] theorem State.begun_stack (s : State) : (s.begun).stack = s.stack := rfl
@[simp] theorem State.begun_dt (s : State) : (s.begun).dt = s.dt := rfl
@[simp] theorem State.begun_st (s : State) : (s.begun).st = s.st := rfl
@[simp] theorem State.begun_key (s : State) : (s.begun).key = s.key := rfl
@[simp] theorem State.begun_keyFlag (s : State) : (s.begun).keyFlag = s.keyFlag := rfl
@[simp] theorem State.begun_fb (s : State) : (s.begun).fb = s.fb := rfl
@[simp] theorem State.begun_mem (s : State) : (s.begun).mem = s.mem := rfl
@[simp] theorem State.begun_status (s : State) : (s.begun).status = s.status := rfl
@[simp] theorem State.begun_fault (s : State) : (s.begun).fault = s.fault := rfl
@[simp] theorem State.begun_boot (s : State) : (s.begun).boot = .started := rfl
@[simp] theorem State.begun_schedule (s : State) : (s.begun).schedule = s.schedule := rfl
@[simp] theorem State.begun_draws (s : State) : (s.begun).draws = s.draws := rfl
@[simp] theorem State.begun_outputs (s : State) : (s.begun).outputs = s.outputs := rfl
@[simp] theorem State.begun_cfg (s : State) : (s.begun).cfg = s.cfg := rfl
@[simp] theorem State.begun_reg (s : State) (r' : Reg) : (s.begun).reg r' = s.reg r' := rfl
@[simp] theorem State.begun_slot (s : State) (j : Fin 16) : (s.begun).slot j = s.slot j := rfl
@[simp] theorem State.begun_held (s : State) (k' : Key) : (s.begun).held k' = s.held k' := rfl
@[simp] theorem State.begun_pixel (s : State) (r' : Fin 32) (c' : Fin 64) : (s.begun).pixel r' c' = s.pixel r' c' := rfl
@[simp] theorem State.begun_readByte (s : State) (a' : Nat) : (s.begun).readByte a' = s.readByte a' := rfl

/-! After `advanced`. -/

@[simp] theorem State.advanced_v (s : State) : (s.advanced).v = s.v := rfl
@[simp] theorem State.advanced_i (s : State) : (s.advanced).i = s.i := rfl
@[simp] theorem State.advanced_pc (s : State) : (s.advanced).pc = s.afterWord := rfl
@[simp] theorem State.advanced_sp (s : State) : (s.advanced).sp = s.sp := rfl
@[simp] theorem State.advanced_stack (s : State) : (s.advanced).stack = s.stack := rfl
@[simp] theorem State.advanced_dt (s : State) : (s.advanced).dt = s.dt := rfl
@[simp] theorem State.advanced_st (s : State) : (s.advanced).st = s.st := rfl
@[simp] theorem State.advanced_key (s : State) : (s.advanced).key = s.key := rfl
@[simp] theorem State.advanced_keyFlag (s : State) : (s.advanced).keyFlag = s.keyFlag := rfl
@[simp] theorem State.advanced_fb (s : State) : (s.advanced).fb = s.fb := rfl
@[simp] theorem State.advanced_mem (s : State) : (s.advanced).mem = s.mem := rfl
@[simp] theorem State.advanced_status (s : State) : (s.advanced).status = s.status := rfl
@[simp] theorem State.advanced_fault (s : State) : (s.advanced).fault = s.fault := rfl
@[simp] theorem State.advanced_boot (s : State) : (s.advanced).boot = s.boot := rfl
@[simp] theorem State.advanced_schedule (s : State) : (s.advanced).schedule = s.schedule := rfl
@[simp] theorem State.advanced_draws (s : State) : (s.advanced).draws = s.draws := rfl
@[simp] theorem State.advanced_outputs (s : State) : (s.advanced).outputs = s.outputs := rfl
@[simp] theorem State.advanced_cfg (s : State) : (s.advanced).cfg = s.cfg := rfl
@[simp] theorem State.advanced_reg (s : State) (r' : Reg) : (s.advanced).reg r' = s.reg r' := rfl
@[simp] theorem State.advanced_slot (s : State) (j : Fin 16) : (s.advanced).slot j = s.slot j := rfl
@[simp] theorem State.advanced_held (s : State) (k' : Key) : (s.advanced).held k' = s.held k' := rfl
@[simp] theorem State.advanced_pixel (s : State) (r' : Fin 32) (c' : Fin 64) : (s.advanced).pixel r' c' = s.pixel r' c' := rfl
@[simp] theorem State.advanced_readByte (s : State) (a' : Nat) : (s.advanced).readByte a' = s.readByte a' := rfl

/-! After `halt`. -/

@[simp] theorem State.halt_v (s : State) : (s.halt).v = s.v := rfl
@[simp] theorem State.halt_i (s : State) : (s.halt).i = s.i := rfl
@[simp] theorem State.halt_pc (s : State) : (s.halt).pc = s.pc := rfl
@[simp] theorem State.halt_sp (s : State) : (s.halt).sp = s.sp := rfl
@[simp] theorem State.halt_stack (s : State) : (s.halt).stack = s.stack := rfl
@[simp] theorem State.halt_dt (s : State) : (s.halt).dt = s.dt := rfl
@[simp] theorem State.halt_st (s : State) : (s.halt).st = s.st := rfl
@[simp] theorem State.halt_key (s : State) : (s.halt).key = s.key := rfl
@[simp] theorem State.halt_keyFlag (s : State) : (s.halt).keyFlag = s.keyFlag := rfl
@[simp] theorem State.halt_fb (s : State) : (s.halt).fb = s.fb := rfl
@[simp] theorem State.halt_mem (s : State) : (s.halt).mem = s.mem := rfl
@[simp] theorem State.halt_status (s : State) : (s.halt).status = .halted := rfl
@[simp] theorem State.halt_fault (s : State) : (s.halt).fault = s.fault := rfl
@[simp] theorem State.halt_boot (s : State) : (s.halt).boot = s.boot := rfl
@[simp] theorem State.halt_schedule (s : State) : (s.halt).schedule = s.schedule := rfl
@[simp] theorem State.halt_draws (s : State) : (s.halt).draws = s.draws := rfl
@[simp] theorem State.halt_outputs (s : State) : (s.halt).outputs = s.outputs := rfl
@[simp] theorem State.halt_cfg (s : State) : (s.halt).cfg = s.cfg := rfl
@[simp] theorem State.halt_reg (s : State) (r' : Reg) : (s.halt).reg r' = s.reg r' := rfl
@[simp] theorem State.halt_slot (s : State) (j : Fin 16) : (s.halt).slot j = s.slot j := rfl
@[simp] theorem State.halt_held (s : State) (k' : Key) : (s.halt).held k' = s.held k' := rfl
@[simp] theorem State.halt_pixel (s : State) (r' : Fin 32) (c' : Fin 64) : (s.halt).pixel r' c' = s.pixel r' c' := rfl
@[simp] theorem State.halt_readByte (s : State) (a' : Nat) : (s.halt).readByte a' = s.readByte a' := rfl

/-! After `unscheduled`. -/

@[simp] theorem State.unscheduled_v (s : State) : (s.unscheduled).v = s.v := rfl
@[simp] theorem State.unscheduled_i (s : State) : (s.unscheduled).i = s.i := rfl
@[simp] theorem State.unscheduled_pc (s : State) : (s.unscheduled).pc = s.pc := rfl
@[simp] theorem State.unscheduled_sp (s : State) : (s.unscheduled).sp = s.sp := rfl
@[simp] theorem State.unscheduled_stack (s : State) : (s.unscheduled).stack = s.stack := rfl
@[simp] theorem State.unscheduled_dt (s : State) : (s.unscheduled).dt = s.dt := rfl
@[simp] theorem State.unscheduled_st (s : State) : (s.unscheduled).st = s.st := rfl
@[simp] theorem State.unscheduled_key (s : State) : (s.unscheduled).key = s.key := rfl
@[simp] theorem State.unscheduled_keyFlag (s : State) : (s.unscheduled).keyFlag = s.keyFlag := rfl
@[simp] theorem State.unscheduled_fb (s : State) : (s.unscheduled).fb = s.fb := rfl
@[simp] theorem State.unscheduled_mem (s : State) : (s.unscheduled).mem = s.mem := rfl
@[simp] theorem State.unscheduled_status (s : State) : (s.unscheduled).status = s.status := rfl
@[simp] theorem State.unscheduled_fault (s : State) : (s.unscheduled).fault = s.fault := rfl
@[simp] theorem State.unscheduled_boot (s : State) : (s.unscheduled).boot = s.boot := rfl
@[simp] theorem State.unscheduled_schedule (s : State) : (s.unscheduled).schedule = s.schedule.tail := rfl
@[simp] theorem State.unscheduled_draws (s : State) : (s.unscheduled).draws = s.draws := rfl
@[simp] theorem State.unscheduled_outputs (s : State) : (s.unscheduled).outputs = s.outputs := rfl
@[simp] theorem State.unscheduled_cfg (s : State) : (s.unscheduled).cfg = s.cfg := rfl
@[simp] theorem State.unscheduled_reg (s : State) (r' : Reg) : (s.unscheduled).reg r' = s.reg r' := rfl
@[simp] theorem State.unscheduled_slot (s : State) (j : Fin 16) : (s.unscheduled).slot j = s.slot j := rfl
@[simp] theorem State.unscheduled_held (s : State) (k' : Key) : (s.unscheduled).held k' = s.held k' := rfl
@[simp] theorem State.unscheduled_pixel (s : State) (r' : Fin 32) (c' : Fin 64) : (s.unscheduled).pixel r' c' = s.pixel r' c' := rfl
@[simp] theorem State.unscheduled_readByte (s : State) (a' : Nat) : (s.unscheduled).readByte a' = s.readByte a' := rfl

/-! After `tick`. -/

@[simp] theorem State.tick_v (s : State) : (s.tick).v = s.v := rfl
@[simp] theorem State.tick_i (s : State) : (s.tick).i = s.i := rfl
@[simp] theorem State.tick_pc (s : State) : (s.tick).pc = s.pc := rfl
@[simp] theorem State.tick_sp (s : State) : (s.tick).sp = s.sp := rfl
@[simp] theorem State.tick_stack (s : State) : (s.tick).stack = s.stack := rfl
@[simp] theorem State.tick_dt (s : State) : (s.tick).dt = countDown s.dt := rfl
@[simp] theorem State.tick_st (s : State) : (s.tick).st = countDown s.st := rfl
@[simp] theorem State.tick_key (s : State) : (s.tick).key = s.key := rfl
@[simp] theorem State.tick_keyFlag (s : State) : (s.tick).keyFlag = s.keyFlag := rfl
@[simp] theorem State.tick_fb (s : State) : (s.tick).fb = s.fb := rfl
@[simp] theorem State.tick_mem (s : State) : (s.tick).mem = s.mem := rfl
@[simp] theorem State.tick_status (s : State) : (s.tick).status = s.status := rfl
@[simp] theorem State.tick_fault (s : State) : (s.tick).fault = s.fault := rfl
@[simp] theorem State.tick_boot (s : State) : (s.tick).boot = s.boot := rfl
@[simp] theorem State.tick_schedule (s : State) : (s.tick).schedule = s.schedule := rfl
@[simp] theorem State.tick_draws (s : State) : (s.tick).draws = s.draws := rfl
@[simp] theorem State.tick_outputs (s : State) : (s.tick).outputs = s.outputs := rfl
@[simp] theorem State.tick_cfg (s : State) : (s.tick).cfg = s.cfg := rfl
@[simp] theorem State.tick_reg (s : State) (r' : Reg) : (s.tick).reg r' = s.reg r' := rfl
@[simp] theorem State.tick_slot (s : State) (j : Fin 16) : (s.tick).slot j = s.slot j := rfl
@[simp] theorem State.tick_held (s : State) (k' : Key) : (s.tick).held k' = s.held k' := rfl
@[simp] theorem State.tick_pixel (s : State) (r' : Fin 32) (c' : Fin 64) : (s.tick).pixel r' c' = s.pixel r' c' := rfl
@[simp] theorem State.tick_readByte (s : State) (a' : Nat) : (s.tick).readByte a' = s.readByte a' := rfl

/-! After `press`. -/

@[simp] theorem State.press_v (s : State) (k : Key) : (s.press k).v = s.v := rfl
@[simp] theorem State.press_i (s : State) (k : Key) : (s.press k).i = s.i := rfl
@[simp] theorem State.press_pc (s : State) (k : Key) : (s.press k).pc = s.pc := rfl
@[simp] theorem State.press_sp (s : State) (k : Key) : (s.press k).sp = s.sp := rfl
@[simp] theorem State.press_stack (s : State) (k : Key) : (s.press k).stack = s.stack := rfl
@[simp] theorem State.press_dt (s : State) (k : Key) : (s.press k).dt = s.dt := rfl
@[simp] theorem State.press_st (s : State) (k : Key) : (s.press k).st = s.st := rfl
@[simp] theorem State.press_key (s : State) (k : Key) : (s.press k).key = s.key.set k.val true k.isLt := rfl
@[simp] theorem State.press_keyFlag (s : State) (k : Key) : (s.press k).keyFlag = true := rfl
@[simp] theorem State.press_fb (s : State) (k : Key) : (s.press k).fb = s.fb := rfl
@[simp] theorem State.press_mem (s : State) (k : Key) : (s.press k).mem = s.mem := rfl
@[simp] theorem State.press_status (s : State) (k : Key) : (s.press k).status = s.status := rfl
@[simp] theorem State.press_fault (s : State) (k : Key) : (s.press k).fault = s.fault := rfl
@[simp] theorem State.press_boot (s : State) (k : Key) : (s.press k).boot = s.boot := rfl
@[simp] theorem State.press_schedule (s : State) (k : Key) : (s.press k).schedule = s.schedule := rfl
@[simp] theorem State.press_draws (s : State) (k : Key) : (s.press k).draws = s.draws := rfl
@[simp] theorem State.press_outputs (s : State) (k : Key) : (s.press k).outputs = s.outputs := rfl
@[simp] theorem State.press_cfg (s : State) (k : Key) : (s.press k).cfg = s.cfg := rfl
@[simp] theorem State.press_reg (s : State) (k : Key) (r' : Reg) : (s.press k).reg r' = s.reg r' := rfl
@[simp] theorem State.press_slot (s : State) (k : Key) (j : Fin 16) : (s.press k).slot j = s.slot j := rfl
@[simp] theorem State.press_pixel (s : State) (k : Key) (r' : Fin 32) (c' : Fin 64) : (s.press k).pixel r' c' = s.pixel r' c' := rfl
@[simp] theorem State.press_readByte (s : State) (k : Key) (a' : Nat) : (s.press k).readByte a' = s.readByte a' := rfl

/-! After `release`. -/

@[simp] theorem State.release_v (s : State) (k : Key) : (s.release k).v = s.v := rfl
@[simp] theorem State.release_i (s : State) (k : Key) : (s.release k).i = s.i := rfl
@[simp] theorem State.release_pc (s : State) (k : Key) : (s.release k).pc = s.pc := rfl
@[simp] theorem State.release_sp (s : State) (k : Key) : (s.release k).sp = s.sp := rfl
@[simp] theorem State.release_stack (s : State) (k : Key) : (s.release k).stack = s.stack := rfl
@[simp] theorem State.release_dt (s : State) (k : Key) : (s.release k).dt = s.dt := rfl
@[simp] theorem State.release_st (s : State) (k : Key) : (s.release k).st = s.st := rfl
@[simp] theorem State.release_key (s : State) (k : Key) : (s.release k).key = s.key.set k.val false k.isLt := rfl
@[simp] theorem State.release_keyFlag (s : State) (k : Key) : (s.release k).keyFlag = s.keyFlag := rfl
@[simp] theorem State.release_fb (s : State) (k : Key) : (s.release k).fb = s.fb := rfl
@[simp] theorem State.release_mem (s : State) (k : Key) : (s.release k).mem = s.mem := rfl
@[simp] theorem State.release_status (s : State) (k : Key) : (s.release k).status = s.status := rfl
@[simp] theorem State.release_fault (s : State) (k : Key) : (s.release k).fault = s.fault := rfl
@[simp] theorem State.release_boot (s : State) (k : Key) : (s.release k).boot = s.boot := rfl
@[simp] theorem State.release_schedule (s : State) (k : Key) : (s.release k).schedule = s.schedule := rfl
@[simp] theorem State.release_draws (s : State) (k : Key) : (s.release k).draws = s.draws := rfl
@[simp] theorem State.release_outputs (s : State) (k : Key) : (s.release k).outputs = s.outputs := rfl
@[simp] theorem State.release_cfg (s : State) (k : Key) : (s.release k).cfg = s.cfg := rfl
@[simp] theorem State.release_reg (s : State) (k : Key) (r' : Reg) : (s.release k).reg r' = s.reg r' := rfl
@[simp] theorem State.release_slot (s : State) (k : Key) (j : Fin 16) : (s.release k).slot j = s.slot j := rfl
@[simp] theorem State.release_pixel (s : State) (k : Key) (r' : Fin 32) (c' : Fin 64) : (s.release k).pixel r' c' = s.pixel r' c' := rfl
@[simp] theorem State.release_readByte (s : State) (k : Key) (a' : Nat) : (s.release k).readByte a' = s.readByte a' := rfl

/-! After `snapshot`. -/

@[simp] theorem State.snapshot_v (s : State) : (s.snapshot).v = s.v := rfl
@[simp] theorem State.snapshot_i (s : State) : (s.snapshot).i = s.i := rfl
@[simp] theorem State.snapshot_pc (s : State) : (s.snapshot).pc = s.pc := rfl
@[simp] theorem State.snapshot_sp (s : State) : (s.snapshot).sp = s.sp := rfl
@[simp] theorem State.snapshot_stack (s : State) : (s.snapshot).stack = s.stack := rfl
@[simp] theorem State.snapshot_dt (s : State) : (s.snapshot).dt = s.dt := rfl
@[simp] theorem State.snapshot_st (s : State) : (s.snapshot).st = s.st := rfl
@[simp] theorem State.snapshot_key (s : State) : (s.snapshot).key = s.key := rfl
@[simp] theorem State.snapshot_keyFlag (s : State) : (s.snapshot).keyFlag = s.keyFlag := rfl
@[simp] theorem State.snapshot_fb (s : State) : (s.snapshot).fb = s.fb := rfl
@[simp] theorem State.snapshot_mem (s : State) : (s.snapshot).mem = s.mem := rfl
@[simp] theorem State.snapshot_status (s : State) : (s.snapshot).status = s.status := rfl
@[simp] theorem State.snapshot_fault (s : State) : (s.snapshot).fault = s.fault := rfl
@[simp] theorem State.snapshot_boot (s : State) : (s.snapshot).boot = s.boot := rfl
@[simp] theorem State.snapshot_schedule (s : State) : (s.snapshot).schedule = s.schedule := rfl
@[simp] theorem State.snapshot_draws (s : State) : (s.snapshot).draws = s.draws := rfl
@[simp] theorem State.snapshot_outputs (s : State) : (s.snapshot).outputs = s.outputs ++ [.frame s.fb] := rfl
@[simp] theorem State.snapshot_cfg (s : State) : (s.snapshot).cfg = s.cfg := rfl
@[simp] theorem State.snapshot_reg (s : State) (r' : Reg) : (s.snapshot).reg r' = s.reg r' := rfl
@[simp] theorem State.snapshot_slot (s : State) (j : Fin 16) : (s.snapshot).slot j = s.slot j := rfl
@[simp] theorem State.snapshot_held (s : State) (k' : Key) : (s.snapshot).held k' = s.held k' := rfl
@[simp] theorem State.snapshot_pixel (s : State) (r' : Fin 32) (c' : Fin 64) : (s.snapshot).pixel r' c' = s.pixel r' c' := rfl
@[simp] theorem State.snapshot_readByte (s : State) (a' : Nat) : (s.snapshot).readByte a' = s.readByte a' := rfl

/-! After `drawn`. -/

@[simp] theorem State.drawn_i (s : State) (x y : Reg) (n : Nibble) : (s.drawn x y n).i = s.i := rfl
@[simp] theorem State.drawn_pc (s : State) (x y : Reg) (n : Nibble) : (s.drawn x y n).pc = s.pc := rfl
@[simp] theorem State.drawn_sp (s : State) (x y : Reg) (n : Nibble) : (s.drawn x y n).sp = s.sp := rfl
@[simp] theorem State.drawn_stack (s : State) (x y : Reg) (n : Nibble) : (s.drawn x y n).stack = s.stack := rfl
@[simp] theorem State.drawn_dt (s : State) (x y : Reg) (n : Nibble) : (s.drawn x y n).dt = s.dt := rfl
@[simp] theorem State.drawn_st (s : State) (x y : Reg) (n : Nibble) : (s.drawn x y n).st = s.st := rfl
@[simp] theorem State.drawn_key (s : State) (x y : Reg) (n : Nibble) : (s.drawn x y n).key = s.key := rfl
@[simp] theorem State.drawn_keyFlag (s : State) (x y : Reg) (n : Nibble) : (s.drawn x y n).keyFlag = s.keyFlag := rfl
@[simp] theorem State.drawn_fb (s : State) (x y : Reg) (n : Nibble) : (s.drawn x y n).fb = (drawSprite (s.reg x) (s.reg y) (s.sprite n) s.fb).fb := rfl
@[simp] theorem State.drawn_mem (s : State) (x y : Reg) (n : Nibble) : (s.drawn x y n).mem = s.mem := rfl
@[simp] theorem State.drawn_status (s : State) (x y : Reg) (n : Nibble) : (s.drawn x y n).status = s.status := rfl
@[simp] theorem State.drawn_fault (s : State) (x y : Reg) (n : Nibble) : (s.drawn x y n).fault = s.fault := rfl
@[simp] theorem State.drawn_boot (s : State) (x y : Reg) (n : Nibble) : (s.drawn x y n).boot = s.boot := rfl
@[simp] theorem State.drawn_schedule (s : State) (x y : Reg) (n : Nibble) : (s.drawn x y n).schedule = s.schedule := rfl
@[simp] theorem State.drawn_draws (s : State) (x y : Reg) (n : Nibble) : (s.drawn x y n).draws = s.draws := rfl
@[simp] theorem State.drawn_outputs (s : State) (x y : Reg) (n : Nibble) : (s.drawn x y n).outputs = s.outputs := rfl
@[simp] theorem State.drawn_cfg (s : State) (x y : Reg) (n : Nibble) : (s.drawn x y n).cfg = s.cfg := rfl
@[simp] theorem State.drawn_slot (s : State) (x y : Reg) (n : Nibble) (j : Fin 16) : (s.drawn x y n).slot j = s.slot j := rfl
@[simp] theorem State.drawn_held (s : State) (x y : Reg) (n : Nibble) (k' : Key) : (s.drawn x y n).held k' = s.held k' := rfl
@[simp] theorem State.drawn_readByte (s : State) (x y : Reg) (n : Nibble) (a' : Nat) : (s.drawn x y n).readByte a' = s.readByte a' := rfl

/-! Registers. -/

@[simp] theorem State.reg_setReg_same (s : State) (r : Reg) (b : Byte) : (s.setReg r b).reg r = b := by
  simp [State.reg, State.setReg, Vector.get_eq_getElem]

theorem State.reg_setReg_other (s : State) (r r' : Reg) (b : Byte) (h : r' ≠ r) : (s.setReg r b).reg r' = s.reg r' := by
  have h' : r.val ≠ r'.val := fun e => h (Fin.ext e.symm)
  simp [State.reg, State.setReg, Vector.get_eq_getElem, Vector.getElem_set_ne, h']

theorem State.reg_setReg (s : State) (r r' : Reg) (b : Byte) :
    (s.setReg r b).reg r' = if r' = r then b else s.reg r' := by
  split
  · next h => rw [h, State.reg_setReg_same]
  · next h => exact State.reg_setReg_other s r r' b h

theorem State.writeFlagResult_reg (s : State) (x : Reg) (flag : Bool) (result : Byte) (r : Reg) :
    (s.writeFlagResult x flag result).reg r = if r = x then result else if r = vF then flagByte flag else s.reg r := by
  simp [State.writeFlagResult, State.reg_setReg]

theorem State.loadBlock_reg (s : State) (x : Reg) (base : Nat) (r : Reg) :
    (s.loadBlock x base).reg r = if r.val ≤ x.val then s.readByte (base + r.val) else s.reg r := by
  simp [State.loadBlock, State.reg, Vector.get_eq_getElem]

theorem State.drawn_reg (s : State) (x y : Reg) (n : Nibble) (r : Reg) :
    (s.drawn x y n).reg r = if r = vF then flagByte (drawSprite (s.reg x) (s.reg y) (s.sprite n) s.fb).erased else s.reg r := by
  simp only [State.drawn, State.reg_setReg]
  rfl

theorem State.press_held (s : State) (k k' : Key) : (s.press k).held k' = if k' = k then true else s.held k' := by
  by_cases h : k' = k
  · simp [State.held, State.press, Vector.get_eq_getElem, h]
  · have h' : k.val ≠ k'.val := fun e => h (Fin.ext e.symm)
    simp [State.held, State.press, Vector.get_eq_getElem, Vector.getElem_set_ne, h, h']

theorem State.release_held (s : State) (k k' : Key) : (s.release k).held k' = if k' = k then false else s.held k' := by
  by_cases h : k' = k
  · simp [State.held, State.release, Vector.get_eq_getElem, h]
  · have h' : k.val ≠ k'.val := fun e => h (Fin.ext e.symm)
    simp [State.held, State.release, Vector.get_eq_getElem, Vector.getElem_set_ne, h, h']

/-! The stack. -/

/-- What a push answers (R82): nothing when the stack is full, else one more entry that holds `pc`. -/
theorem State.push_full (s : State) (h : s.sp.val = 16) : s.push = none := by simp [State.push, h]

theorem State.push_eq (s : State) (h : s.sp.val < 16) :
    s.push = some { s with sp := ⟨s.sp.val + 1, by omega⟩, stack := s.stack.set s.sp.val s.pc h } := by
  simp [State.push, h]

/-- What a pop answers (R80): nothing when the stack is empty, else one entry less and its value in `pc`. -/
theorem State.pop_empty (s : State) (h : s.sp.val = 0) : s.pop = none := by simp [State.pop, h]

theorem State.pop_eq (s : State) (h : 0 < s.sp.val) :
    s.pop = some { s with pc := s.slot ⟨s.sp.val - 1, by omega⟩, sp := ⟨s.sp.val - 1, by omega⟩ } := by
  simp [State.pop, h, State.slot, Vector.get_eq_getElem]

end Sys2Proof.Machine
end

