-- ==== Sys2Proof/Laws/Memory.lean ====
section
/-! SUPPORT. The laws of memory: reading after a write, the canonical form kept by every operation, and the same for a block
of stores (20_memory.md R33, R36 to R38). -/

namespace Sys2Proof.Machine

/-! One cell. -/

theorem Memory.lookup_insert (m : Memory) (a : Nat) (b : Byte) (a' : Nat) :
    (m.insert a b).lookup a' = if a' = a then some b else m.lookup a' := by
  induction m with
  | nil => by_cases h : a = a' <;> simp [Memory.insert, Memory.lookup, h, eq_comm]
  | cons cell rest ih =>
    simp only [Memory.insert]
    split
    · by_cases h : a = a' <;> simp [Memory.lookup, h, eq_comm]
    · split
      · next h => by_cases h' : a' = a <;> simp_all [Memory.lookup, eq_comm]
      · next h1 h2 =>
        simp only [Memory.lookup, ih]
        split
        · next h3 => subst h3; rw [if_neg (Ne.symm h2)]
        · rfl

theorem Memory.lookup_erase (m : Memory) (a a' : Nat) :
    (m.erase a).lookup a' = if a' = a then none else m.lookup a' := by
  induction m with
  | nil => simp [Memory.erase, Memory.lookup]
  | cons cell rest ih =>
    simp only [Memory.erase, List.filter_cons] at ih ⊢
    by_cases h : cell.1 = a
    · simp only [h, bne_self_eq_false, Bool.false_eq_true, if_false, ih, Memory.lookup]
      by_cases h' : a' = a
      · simp [h']
      · simp [h', Ne.symm h']
    · simp only [bne_iff_ne, ne_eq, h, not_false_eq_true, if_true, Memory.lookup, ih]
      by_cases h' : cell.1 = a'
      · simp [h', show a' ≠ a from fun e => h (h'.trans e)]
      · simp [h']

/-- A read after a write: the written byte at the written address, the old byte everywhere else. -/
theorem Memory.read_write (c : Config) (m : Memory) (a : Nat) (b : Byte) (a' : Nat) :
    (m.write c a b).read c a' = if a' = a then b else m.read c a' := by
  unfold Memory.write Memory.read
  split
  · next h => rw [Memory.lookup_erase]; by_cases h' : a' = a <;> simp [h', h]
  · rw [Memory.lookup_insert]; by_cases h' : a' = a <;> simp [h']

/-! The canonical form. -/

theorem Memory.mem_insert {m : Memory} {a : Nat} {b : Byte} {p : Host.Cell} (h : p ∈ m.insert a b) :
    p = (a, b) ∨ p ∈ m := by
  induction m with
  | nil => simpa [Memory.insert] using h
  | cons cell rest ih =>
    simp only [Memory.insert] at h
    split at h
    · simpa using h
    · split at h
      · rcases List.mem_cons.mp h with h | h
        · exact .inl h
        · exact .inr (List.mem_cons_of_mem _ h)
      · rcases List.mem_cons.mp h with h | h
        · exact .inr (h ▸ List.mem_cons_self)
        · exact (ih h).imp id (List.mem_cons_of_mem _)

theorem Memory.pairwise_insert {m : Memory} (a : Nat) (b : Byte) (h : m.Pairwise fun p q => p.1 < q.1) :
    (m.insert a b).Pairwise fun p q => p.1 < q.1 := by
  induction m with
  | nil => simp [Memory.insert]
  | cons cell rest ih =>
    obtain ⟨h1, h2⟩ := List.pairwise_cons.mp h
    simp only [Memory.insert]
    split
    · next hlt =>
      refine List.pairwise_cons.mpr ⟨fun q hq => ?_, h⟩
      rcases List.mem_cons.mp hq with rfl | hq
      · exact hlt
      · exact Nat.lt_trans hlt (h1 q hq)
    · split
      · next heq => exact List.pairwise_cons.mpr ⟨fun q hq => heq ▸ h1 q hq, h2⟩
      · refine List.pairwise_cons.mpr ⟨fun q hq => ?_, ih h2⟩
        rcases Memory.mem_insert hq with rfl | hq
        · show cell.1 < a; omega
        · exact h1 q hq

/-- A write to a cell of memory keeps the canonical form. -/
theorem Memory.wf_write {c : Config} {m : Memory} (a : Nat) (b : Byte) (ha : a < c.memSize) (h : m.wf c) :
    (m.write c a b).wf c := by
  unfold Memory.write
  split
  · exact ⟨h.1.filter _, fun p hp => h.2 p (List.mem_filter.mp hp).1⟩
  · next hne =>
    refine ⟨Memory.pairwise_insert a b h.1, fun p hp => ?_⟩
    rcases Memory.mem_insert hp with rfl | hp
    · exact ⟨ha, hne⟩
    · exact h.2 p hp

/-- Memory with nothing listed is canonical. -/
theorem Memory.wf_nil (c : Config) : Memory.wf c [] :=
  ⟨List.Pairwise.nil, fun _ h => nomatch h⟩

/-! Bytes and blocks through the state. -/

theorem State.readByte_writeByte (s : State) (a : Nat) (b : Byte) (a' : Nat) :
    (s.writeByte a b).readByte a' = if a' = a then b else s.readByte a' :=
  Memory.read_write s.cfg s.mem a b a'

/-- A block of stores changes memory alone. -/
theorem State.storeBytes_eq (s : State) (base : Nat) (bytes : List Byte) :
    s.storeBytes base bytes = { s with mem := (s.storeBytes base bytes).mem } := by
  induction bytes generalizing s base with
  | nil => rfl
  | cons b bs ih => rw [State.storeBytes, ih]; rfl

@[simp] theorem State.storeBytes_nil (s : State) (base : Nat) : s.storeBytes base [] = s := rfl

@[simp] theorem State.storeBytes_cons (s : State) (base : Nat) (b : Byte) (bs : List Byte) :
    s.storeBytes base (b :: bs) = (s.writeByte base b).storeBytes (base + 1) bs := rfl

@[simp] theorem State.storeBytes_v (s : State) (base : Nat) (bytes : List Byte) :
    (s.storeBytes base bytes).v = s.v := by rw [State.storeBytes_eq]
@[simp] theorem State.storeBytes_i (s : State) (base : Nat) (bytes : List Byte) :
    (s.storeBytes base bytes).i = s.i := by rw [State.storeBytes_eq]
@[simp] theorem State.storeBytes_pc (s : State) (base : Nat) (bytes : List Byte) :
    (s.storeBytes base bytes).pc = s.pc := by rw [State.storeBytes_eq]
@[simp] theorem State.storeBytes_sp (s : State) (base : Nat) (bytes : List Byte) :
    (s.storeBytes base bytes).sp = s.sp := by rw [State.storeBytes_eq]
@[simp] theorem State.storeBytes_stack (s : State) (base : Nat) (bytes : List Byte) :
    (s.storeBytes base bytes).stack = s.stack := by rw [State.storeBytes_eq]
@[simp] theorem State.storeBytes_dt (s : State) (base : Nat) (bytes : List Byte) :
    (s.storeBytes base bytes).dt = s.dt := by rw [State.storeBytes_eq]
@[simp] theorem State.storeBytes_st (s : State) (base : Nat) (bytes : List Byte) :
    (s.storeBytes base bytes).st = s.st := by rw [State.storeBytes_eq]
@[simp] theorem State.storeBytes_key (s : State) (base : Nat) (bytes : List Byte) :
    (s.storeBytes base bytes).key = s.key := by rw [State.storeBytes_eq]
@[simp] theorem State.storeBytes_keyFlag (s : State) (base : Nat) (bytes : List Byte) :
    (s.storeBytes base bytes).keyFlag = s.keyFlag := by rw [State.storeBytes_eq]
@[simp] theorem State.storeBytes_fb (s : State) (base : Nat) (bytes : List Byte) :
    (s.storeBytes base bytes).fb = s.fb := by rw [State.storeBytes_eq]
@[simp] theorem State.storeBytes_status (s : State) (base : Nat) (bytes : List Byte) :
    (s.storeBytes base bytes).status = s.status := by rw [State.storeBytes_eq]
@[simp] theorem State.storeBytes_fault (s : State) (base : Nat) (bytes : List Byte) :
    (s.storeBytes base bytes).fault = s.fault := by rw [State.storeBytes_eq]
@[simp] theorem State.storeBytes_boot (s : State) (base : Nat) (bytes : List Byte) :
    (s.storeBytes base bytes).boot = s.boot := by rw [State.storeBytes_eq]
@[simp] theorem State.storeBytes_schedule (s : State) (base : Nat) (bytes : List Byte) :
    (s.storeBytes base bytes).schedule = s.schedule := by rw [State.storeBytes_eq]
@[simp] theorem State.storeBytes_draws (s : State) (base : Nat) (bytes : List Byte) :
    (s.storeBytes base bytes).draws = s.draws := by rw [State.storeBytes_eq]
@[simp] theorem State.storeBytes_outputs (s : State) (base : Nat) (bytes : List Byte) :
    (s.storeBytes base bytes).outputs = s.outputs := by rw [State.storeBytes_eq]
@[simp] theorem State.storeBytes_cfg (s : State) (base : Nat) (bytes : List Byte) :
    (s.storeBytes base bytes).cfg = s.cfg := by rw [State.storeBytes_eq]
@[simp] theorem State.storeBytes_reg (s : State) (base : Nat) (bytes : List Byte) (r : Reg) :
    (s.storeBytes base bytes).reg r = s.reg r := by rw [State.storeBytes_eq]; rfl
@[simp] theorem State.storeBytes_slot (s : State) (base : Nat) (bytes : List Byte) (j : Fin 16) :
    (s.storeBytes base bytes).slot j = s.slot j := by rw [State.storeBytes_eq]; rfl
@[simp] theorem State.storeBytes_held (s : State) (base : Nat) (bytes : List Byte) (k : Key) :
    (s.storeBytes base bytes).held k = s.held k := by rw [State.storeBytes_eq]; rfl
@[simp] theorem State.storeBytes_pixel (s : State) (base : Nat) (bytes : List Byte) (r : Fin 32) (c : Fin 64) :
    (s.storeBytes base bytes).pixel r c = s.pixel r c := by rw [State.storeBytes_eq]; rfl

/-- A read after a block of stores: the stored byte inside the block, the old byte outside it. -/
theorem State.readByte_storeBytes (s : State) (base : Nat) (bytes : List Byte) (a : Nat) :
    (s.storeBytes base bytes).readByte a =
      if h : base ≤ a ∧ a - base < bytes.length then bytes[a - base] else s.readByte a := by
  induction bytes generalizing s base with
  | nil => simp
  | cons b bs ih =>
    rw [State.storeBytes_cons, ih]
    by_cases h0 : a = base
    · subst h0
      simp [State.readByte_writeByte, show ¬ (a + 1 ≤ a) by omega]
    · by_cases h : base + 1 ≤ a ∧ a - (base + 1) < bs.length
      · have e : a - base = a - (base + 1) + 1 := by omega
        rw [dif_pos h, dif_pos ⟨by omega, by simp; omega⟩]
        simp [e]
      · rw [dif_neg h, dif_neg (by simp; omega), State.readByte_writeByte, if_neg h0]

/-- A block of stores inside memory keeps the canonical form. -/
theorem State.wf_storeBytes (s : State) (base : Nat) (bytes : List Byte) (hfit : base + bytes.length ≤ s.cfg.memSize ∨ bytes = [])
    (h : s.mem.wf s.cfg) : (s.storeBytes base bytes).mem.wf s.cfg := by
  induction bytes generalizing s base with
  | nil => exact h
  | cons b bs ih =>
    have hfit' : base + (bs.length + 1) ≤ s.cfg.memSize := by simpa using hfit
    exact ih (s.writeByte base b) (base + 1) (by left; rw [State.writeByte_cfg]; omega)
      (Memory.wf_write (c := s.cfg) base b (by omega) h)

/-! The image of `Load` (R173). -/

/-- Copying an image changes memory alone. -/
theorem State.copyImage_eq (s : State) (base : Nat) (image : List Byte) :
    s.copyImage base image = { s with mem := (s.copyImage base image).mem } := by
  induction image generalizing s base with
  | nil => rfl
  | cons b bs ih =>
    rw [State.copyImage]
    split
    · rw [ih]; rfl
    · rfl

@[simp] theorem State.copyImage_v (s : State) (base : Nat) (image : List Byte) :
    (s.copyImage base image).v = s.v := by rw [State.copyImage_eq]
@[simp] theorem State.copyImage_i (s : State) (base : Nat) (image : List Byte) :
    (s.copyImage base image).i = s.i := by rw [State.copyImage_eq]
@[simp] theorem State.copyImage_pc (s : State) (base : Nat) (image : List Byte) :
    (s.copyImage base image).pc = s.pc := by rw [State.copyImage_eq]
@[simp] theorem State.copyImage_sp (s : State) (base : Nat) (image : List Byte) :
    (s.copyImage base image).sp = s.sp := by rw [State.copyImage_eq]
@[simp] theorem State.copyImage_stack (s : State) (base : Nat) (image : List Byte) :
    (s.copyImage base image).stack = s.stack := by rw [State.copyImage_eq]
@[simp] theorem State.copyImage_dt (s : State) (base : Nat) (image : List Byte) :
    (s.copyImage base image).dt = s.dt := by rw [State.copyImage_eq]
@[simp] theorem State.copyImage_st (s : State) (base : Nat) (image : List Byte) :
    (s.copyImage base image).st = s.st := by rw [State.copyImage_eq]
@[simp] theorem State.copyImage_key (s : State) (base : Nat) (image : List Byte) :
    (s.copyImage base image).key = s.key := by rw [State.copyImage_eq]
@[simp] theorem State.copyImage_keyFlag (s : State) (base : Nat) (image : List Byte) :
    (s.copyImage base image).keyFlag = s.keyFlag := by rw [State.copyImage_eq]
@[simp] theorem State.copyImage_fb (s : State) (base : Nat) (image : List Byte) :
    (s.copyImage base image).fb = s.fb := by rw [State.copyImage_eq]
@[simp] theorem State.copyImage_status (s : State) (base : Nat) (image : List Byte) :
    (s.copyImage base image).status = s.status := by rw [State.copyImage_eq]
@[simp] theorem State.copyImage_fault (s : State) (base : Nat) (image : List Byte) :
    (s.copyImage base image).fault = s.fault := by rw [State.copyImage_eq]
@[simp] theorem State.copyImage_boot (s : State) (base : Nat) (image : List Byte) :
    (s.copyImage base image).boot = s.boot := by rw [State.copyImage_eq]
@[simp] theorem State.copyImage_schedule (s : State) (base : Nat) (image : List Byte) :
    (s.copyImage base image).schedule = s.schedule := by rw [State.copyImage_eq]
@[simp] theorem State.copyImage_draws (s : State) (base : Nat) (image : List Byte) :
    (s.copyImage base image).draws = s.draws := by rw [State.copyImage_eq]
@[simp] theorem State.copyImage_outputs (s : State) (base : Nat) (image : List Byte) :
    (s.copyImage base image).outputs = s.outputs := by rw [State.copyImage_eq]
@[simp] theorem State.copyImage_cfg (s : State) (base : Nat) (image : List Byte) :
    (s.copyImage base image).cfg = s.cfg := by rw [State.copyImage_eq]
@[simp] theorem State.copyImage_reg (s : State) (base : Nat) (image : List Byte) (r : Reg) :
    (s.copyImage base image).reg r = s.reg r := by rw [State.copyImage_eq]; rfl
@[simp] theorem State.copyImage_slot (s : State) (base : Nat) (image : List Byte) (j : Fin 16) :
    (s.copyImage base image).slot j = s.slot j := by rw [State.copyImage_eq]; rfl
@[simp] theorem State.copyImage_held (s : State) (base : Nat) (image : List Byte) (k : Key) :
    (s.copyImage base image).held k = s.held k := by rw [State.copyImage_eq]; rfl
@[simp] theorem State.copyImage_pixel (s : State) (base : Nat) (image : List Byte) (r : Fin 32) (c : Fin 64) :
    (s.copyImage base image).pixel r c = s.pixel r c := by rw [State.copyImage_eq]; rfl

/-- A read after an image has been copied: its byte where it lies inside memory, the old byte elsewhere. -/
theorem State.readByte_copyImage (s : State) (base : Nat) (image : List Byte) (a : Nat) :
    (s.copyImage base image).readByte a =
      if h : base ≤ a ∧ a - base < image.length ∧ a < s.cfg.memSize then image[a - base]'h.2.1 else s.readByte a := by
  induction image generalizing s base with
  | nil => simp [State.copyImage]
  | cons b bs ih =>
    rw [State.copyImage]
    split
    · next hb =>
      have h' := ih (s.writeByte base b) (base + 1)
      by_cases h0 : a = base
      · subst h0
        rw [h', dif_neg (by omega), dif_pos ⟨by omega, by simp, hb⟩, State.readByte_writeByte, if_pos rfl]
        simp
      · by_cases h : base + 1 ≤ a ∧ a - (base + 1) < bs.length ∧ a < s.cfg.memSize
        · have e : a - base = a - (base + 1) + 1 := by omega
          rw [h', dif_pos (show _ ∧ _ ∧ a < (s.writeByte base b).cfg.memSize from h),
            dif_pos ⟨by omega, by simp; omega, h.2.2⟩]
          simp [e]
        · rw [h', dif_neg (show ¬ (_ ∧ _ ∧ a < (s.writeByte base b).cfg.memSize) from h), dif_neg (by simp; omega),
            State.readByte_writeByte, if_neg h0]
    · rw [dif_neg (by omega)]

/-- Copying an image keeps the canonical form. -/
theorem State.wf_copyImage (s : State) (base : Nat) (image : List Byte) (h : s.mem.wf s.cfg) :
    (s.copyImage base image).mem.wf s.cfg := by
  induction image generalizing s base with
  | nil => exact h
  | cons b bs ih =>
    rw [State.copyImage]
    split
    · next hb => exact ih (s.writeByte base b) (base + 1) (Memory.wf_write (c := s.cfg) base b hb h)
    · exact h

end Sys2Proof.Machine
end

