-- ==== Sys2Proof/Laws/Ops.lean ====
section
/-! SUPPORT. One lemma for each shared operation that says everything it can do: the access checks, fault entry, the guarded
reads and writes, skips, key readings, flags and pops; provers cite these instead of unfolding. -/

namespace Sys2Proof.Machine

/-! Frames. -/

theorem Unchanged.refl (touched : Part → Prop) (s : State) : Unchanged touched s s := fun p _ => by
  cases p <;> rfl

theorem Unchanged.mono {touched touched' : Part → Prop} {s t : State} (h : Unchanged touched s t)
    (hsub : ∀ p, touched p → touched' p) : Unchanged touched' s t := fun p hp => h p fun hp' => hp (hsub p hp')

/-! The program counter's width (R5, D3). -/

theorem wrapPc_toNat (c : Config) (w : Word) : (wrapPc c w).toNat = w.toNat % 2 ^ c.pcLen.bits := by
  rw [wrapPc, BitVec.toNat_ofNat]
  have := w.isLt
  exact Nat.mod_eq_of_lt (lt_of_le_of_lt (Nat.mod_le _ _) this)

/-- At the spec's 16 bits nothing is cut. -/
theorem wrapPc_sixteen (c : Config) (w : Word) (h : c.pcLen = .sixteen) : wrapPc c w = w := by
  apply BitVec.eq_of_toNat_eq
  rw [wrapPc_toNat, h]
  exact Nat.mod_eq_of_lt w.isLt

theorem State.afterWord_toNat (s : State) : s.afterWord.toNat = (s.pc.toNat + 2) % 2 ^ s.cfg.pcLen.bits := by
  rw [State.afterWord, wrapPc_toNat, BitVec.toNat_add]
  cases s.cfg.pcLen <;> simp only [PcWidth.bits, BitVec.reduceToNat] <;> omega

theorem State.instrAddr_toNat (s : State) :
    s.instrAddr.toNat = (s.pc.toNat + 2 ^ s.cfg.pcLen.bits - 2) % 2 ^ s.cfg.pcLen.bits := by
  rw [State.instrAddr, wrapPc_toNat, BitVec.toNat_sub]
  cases s.cfg.pcLen <;> simp only [PcWidth.bits, BitVec.reduceToNat] <;> omega

theorem State.isAfterWord_iff (s : State) (p : Word) : s.IsAfterWord p ↔ p = s.afterWord := by
  rw [State.IsAfterWord, ← State.afterWord_toNat, BitVec.toNat_inj]

theorem State.isInstrAddr_iff (s : State) (a : Word) : s.IsInstrAddr a ↔ a = s.instrAddr := by
  rw [State.IsInstrAddr, ← State.instrAddr_toNat, BitVec.toNat_inj]

/-- Fault entry is what `FaultEntered` says (R141). -/
theorem State.raise_faultEntered (s : State) (cause : FaultCause) (info : Nat) :
    FaultEntered s (s.raise cause info) cause info where
  status := rfl
  cause := rfl
  addr := (s.isInstrAddr_iff _).mpr rfl
  info := rfl
  frame := fun p hp => by
    cases p <;> first | rfl | exact absurd (.inl rfl) hp | exact absurd (.inr rfl) hp

/-- A register write changes that register alone. -/
theorem State.setReg_frame (s : State) (x : Reg) (b : Byte) : Unchanged (· = .reg x) s (s.setReg x b) := fun p hp => by
  cases p with
  | reg r => exact State.reg_setReg_other s x r b fun e => hp (e ▸ rfl)
  | _ => rfl

/-- A flag and a result change their two registers alone. -/
theorem State.writeFlagResult_frame (s : State) (x : Reg) (flag : Bool) (result : Byte) :
    Unchanged (fun p => p = .reg x ∨ p = .reg vF) s (s.writeFlagResult x flag result) := fun p hp => by
  cases p with
  | reg r =>
    have h1 : r ≠ x := fun e => hp (.inl (e ▸ rfl))
    have h2 : r ≠ vF := fun e => hp (.inr (e ▸ rfl))
    simp [Part.same, State.writeFlagResult_reg, h1, h2]
  | _ => rfl

/-- A skip is a jump by one word or nothing (R88). -/
theorem State.skipIf_pc (s : State) (b : Bool) : (s.skipIf b).pc = if b = true then s.afterWord else s.pc := by
  unfold State.skipIf; split <;> simp_all

theorem State.skipIf_frame (s : State) (b : Bool) : Unchanged (· = .pc) s (s.skipIf b) := fun p hp => by
  cases b <;> cases p <;> first | rfl | exact absurd rfl hp

/-- An instruction whose meaning is a skip answers as the rules of the skips say. -/
theorem answersSkip_of_skipIf (i : Instr) (condition : Prop) (s : State) (b : Bool) (h : exec i s = .next (s.skipIf b))
    (hb : b = true ↔ condition) : AnswersSkip i condition s := by
  refine ⟨_, h, fun hc => ?_, fun hc => ?_, s.skipIf_frame b⟩
  · rw [State.isAfterWord_iff, State.skipIf_pc, if_pos (hb.mpr hc)]
  · rw [State.skipIf_pc, if_neg (mt hb.mp hc)]

theorem State.jump_frame (s : State) (w : Word) : Unchanged (· = .pc) s (s.jump w) := fun p hp => by
  cases p <;> first | rfl | exact absurd rfl hp

/-! Access checks. -/

theorem mem_effectiveAddrs (base n a : Nat) : a ∈ effectiveAddrs base n ↔ base ≤ a ∧ a < base + n := by
  simp only [effectiveAddrs, List.mem_map, List.mem_range]
  constructor
  · rintro ⟨j, hj, rfl⟩; omega
  · intro h; exact ⟨a - base, by omega, by omega⟩

theorem effectiveAddrs_succ (base n : Nat) : effectiveAddrs base (n + 1) = base :: effectiveAddrs (base + 1) n := by
  simp only [effectiveAddrs, List.range_succ_eq_map, List.map_cons, List.map_map, Nat.add_zero]
  congr 1
  exact List.map_congr_left fun j _ => by simp; omega

/-- In a block of rising addresses the first one at or above a limit is the limit, or the base above it. -/
theorem find_atOrAbove (base n limit : Nat) (p : Nat → Bool) (hp : ∀ a, p a = decide (limit ≤ a)) :
    (effectiveAddrs base n).find? p = if limit < base + n ∧ 0 < n then some (max base limit) else none := by
  induction n generalizing base with
  | zero => simp [effectiveAddrs]
  | succ n ih =>
    rw [effectiveAddrs_succ, List.find?_cons, hp]
    by_cases h : limit ≤ base
    · rw [decide_eq_true h, if_pos ⟨by omega, by omega⟩, Nat.max_eq_left h]
    · rw [decide_eq_false h]
      simp only [ih]
      by_cases h2 : limit < base + (n + 1)
      · rw [if_pos ⟨by omega, by omega⟩, if_pos ⟨h2, by omega⟩]
        congr 1; omega
      · rw [if_neg (by omega), if_neg (by omega)]

theorem State.readFault_eq (s : State) (a : Nat) :
    (s.readFault a == some .memBounds) = decide (s.cfg.memSize ≤ a) := by
  unfold State.readFault; split <;> simp_all

theorem State.writeFault_memBounds (s : State) (a : Nat) :
    (s.writeFault a == some .memBounds) = decide (s.cfg.memSize ≤ a) := by
  unfold State.writeFault
  split
  · simp_all
  · next h =>
    rw [decide_eq_false h]
    split <;> rfl

theorem State.writeFault_fontWrite (s : State) (a : Nat) :
    (s.writeFault a == some .fontWrite) = decide (a < s.cfg.memSize ∧ a < 80 ∧ s.cfg.fontWrite = .fault) := by
  unfold State.writeFault Config.fontCells
  split
  · next h => simp [Nat.not_lt.mpr h]
  · next h => split <;> simp_all

/-- The check of a block of reads: the first address outside memory, if one is (R36, R38). -/
theorem State.checkReads_eq (s : State) (base n : Nat) :
    s.checkReads (effectiveAddrs base n) =
      if s.cfg.memSize < base + n ∧ 0 < n then some (.memBounds, max base s.cfg.memSize) else none := by
  unfold State.checkReads firstFailing
  rw [find_atOrAbove base n s.cfg.memSize _ (fun a => s.readFault_eq a)]
  split <;> rfl

/-- The check of a block of writes: the first address outside memory, else the first one in the protected font region (R37,
R38, R143). -/
theorem State.checkWrites_eq (s : State) (base n : Nat) (hn : 0 < n) :
    s.checkWrites (effectiveAddrs base n) =
      if s.cfg.memSize < base + n then some (.memBounds, max base s.cfg.memSize)
      else if base < 80 ∧ s.cfg.fontWrite = .fault then some (.fontWrite, base) else none := by
  unfold State.checkWrites firstFailing
  rw [find_atOrAbove base n s.cfg.memSize _ (fun a => s.writeFault_memBounds a)]
  by_cases h : s.cfg.memSize < base + n
  · simp [h, hn]
  · simp only [h, hn, and_true, if_false, Option.map_none]
    obtain ⟨n, rfl⟩ : ∃ m, n = m + 1 := ⟨n - 1, by omega⟩
    by_cases hb : base < 80 ∧ s.cfg.fontWrite = .fault
    · rw [if_pos hb, effectiveAddrs_succ, List.find?_cons_of_pos]
      · rfl
      · rw [s.writeFault_fontWrite]; exact decide_eq_true ⟨by omega, hb⟩
    · rw [if_neg hb, List.find?_eq_none.mpr]
      · rfl
      · intro a ha
        rw [s.writeFault_fontWrite]
        have := (mem_effectiveAddrs _ _ _).mp ha
        simp only [decide_eq_true_eq]
        exact fun h => hb ⟨by omega, h.2.2⟩

/-- All that a guarded read can do: enter `MEM_BOUNDS` for the lowest address outside memory, or go on (R38). -/
theorem State.afterReads_eq (s : State) (base n : Nat) (done : State) :
    s.afterReads (effectiveAddrs base n) done =
      if s.cfg.memSize < base + n ∧ 0 < n then .next (s.raise .memBounds (max base s.cfg.memSize)) else .next done := by
  unfold State.afterReads
  rw [s.checkReads_eq]
  split <;> simp_all

/-- All that a guarded write can do: enter `MEM_BOUNDS`, else `FONT_WRITE`, each for the lowest address, or go on (R38). -/
theorem State.afterWrites_eq (s : State) (base n : Nat) (hn : 0 < n) (done : State) :
    s.afterWrites (effectiveAddrs base n) done =
      if s.cfg.memSize < base + n then .next (s.raise .memBounds (max base s.cfg.memSize))
      else if base < 80 ∧ s.cfg.fontWrite = .fault then .next (s.raise .fontWrite base) else .next done := by
  unfold State.afterWrites
  rw [s.checkWrites_eq base n hn]
  by_cases h1 : s.cfg.memSize < base + n
  · simp only [if_pos h1]
  · by_cases h2 : base < 80 ∧ s.cfg.fontWrite = .fault
    · simp only [if_neg h1, if_pos h2]
    · simp only [if_neg h1, if_neg h2]

/-- A guarded read answers a next state: a fault entry or the given state. -/
theorem State.afterReads_cases (s : State) (base n : Nat) (done : State) :
    (∃ info, s.afterReads (effectiveAddrs base n) done = .next (s.raise .memBounds info)) ∨
      s.afterReads (effectiveAddrs base n) done = .next done := by
  rw [s.afterReads_eq]
  split
  · exact .inl ⟨_, rfl⟩
  · exact .inr rfl

/-- A guarded write answers a next state: a fault entry, or the given state with every address writable. -/
theorem State.afterWrites_cases (s : State) (base n : Nat) (hn : 0 < n) (done : State) :
    (∃ cause info, cause ≠ .none ∧ s.afterWrites (effectiveAddrs base n) done = .next (s.raise cause info)) ∨
      (base + n ≤ s.cfg.memSize ∧ (80 ≤ base ∨ s.cfg.fontWrite ≠ .fault) ∧
        s.afterWrites (effectiveAddrs base n) done = .next done) := by
  rw [s.afterWrites_eq base n hn]
  split
  · exact .inl ⟨_, _, by simp, rfl⟩
  · split
    · exact .inl ⟨_, _, by simp, rfl⟩
    · next h1 h2 => exact .inr ⟨by omega, by by_cases h : 80 ≤ base <;> simp_all, rfl⟩

/-! Keys. -/

/-- A key reading in range is the level of that key under every policy (R130). -/
theorem State.keyReading_inRange (s : State) (b : Byte) (h : b.toNat < 16) :
    s.keyReading b = some (s.held ⟨b.toNat, h⟩) := by simp [State.keyReading, h]

/-- A key reading out of range goes by the policy (R130, D9). -/
theorem State.keyReading_outOfRange (s : State) (b : Byte) (h : 15 < b.toNat) :
    s.keyReading b = match s.cfg.keyIndex with
      | .fault => none
      | .mask4 => some (s.held (Fin.ofNat 16 b.toNat))
      | .notPressed => some false := by
  have h' : ¬ b.toNat < 16 := by omega
  cases hp : s.cfg.keyIndex <;> simp [State.keyReading, h', hp]

/-- The lowest held key is held and no lower one is (R134). -/
theorem State.lowestHeld_some (s : State) (k : Key) :
    s.lowestHeld = some k ↔ s.held k = true ∧ ∀ j : Key, j < k → s.held j = false := by
  unfold State.lowestHeld
  rw [List.find?_eq_some_iff_getElem]
  constructor
  · rintro ⟨hk, i, hi, e, hlow⟩
    refine ⟨hk, fun j hj => ?_⟩
    have hi' : i = k.val := by rw [← e]; simp
    have := hlow j.val (by simpa [hi'] using hj)
    simpa using this
  · rintro ⟨hk, hlow⟩
    refine ⟨hk, k.val, by simp, by simp, fun j hj => ?_⟩
    have : j < 16 := by omega
    simpa using hlow ⟨j, this⟩ (by simpa [Fin.lt_def] using hj)

/-- There is no lowest held key exactly when none is held. -/
theorem State.lowestHeld_none (s : State) : s.lowestHeld = none ↔ ∀ k, s.held k = false := by
  unfold State.lowestHeld
  rw [List.find?_eq_none]
  simp

end Sys2Proof.Machine
end

