-- ==== Sys2Proof/Laws/Display.lean ====
section
/-! SUPPORT. What a draw does, said once: it XORs the framebuffer with the pixels under the sprite, and reports erasure exactly
when one of them was set (44_display.md R122, R123). -/

namespace Sys2Proof.Machine

theorem pixelOf_togglePixel (fb : Framebuffer) (r r' : Fin 32) (c c' : Fin 64) :
    pixelOf (togglePixel fb r c) r' c' = if r' = r ∧ c' = c then !pixelOf fb r c else pixelOf fb r' c' := by
  unfold pixelOf togglePixel
  simp only [Vector.get_eq_getElem]
  by_cases hr : r' = r
  · subst hr
    by_cases hc : c' = c
    · subst hc; simp [pixelOf, Vector.get_eq_getElem]
    · have : c.val ≠ c'.val := fun e => hc (Fin.ext e.symm)
      simp [hc, Vector.getElem_set_ne, this]
  · have : r.val ≠ r'.val := fun e => hr (Fin.ext e.symm)
    simp [hr, Vector.getElem_set_ne, this]

/-- The pixel lies under one of the first `n` bits of a sprite row. -/
def underBits (px row : Nat) (b : Byte) (n : Nat) (r : Fin 32) (c : Fin 64) : Prop :=
  ∃ k, k < n ∧ b.getLsbD (7 - k) = true ∧ row % 32 = r.val ∧ (px + k) % 64 = c.val

/-- The pixel lies under a 1 bit of the rows of a sprite, the first one at `row`. -/
def underRows (px row : Nat) (sprite : List Byte) (r : Fin 32) (c : Fin 64) : Prop :=
  ∃ i, i < sprite.length ∧ underBits px (row + i) (sprite.getD i 0) 8 r c

/-- A canvas after drawing a set of pixels: they are toggled, and erased ones are noticed. -/
structure Drawn (under : Fin 32 → Fin 64 → Prop) (d d' : Canvas) : Prop where
  on : ∀ r c, under r c → pixelOf d'.fb r c = !pixelOf d.fb r c
  off : ∀ r c, ¬ under r c → pixelOf d'.fb r c = pixelOf d.fb r c
  erased : d'.erased = true ↔ d.erased = true ∨ ∃ r c, under r c ∧ pixelOf d.fb r c = true

/-- Two draws on disjoint pixels are one draw on both. -/
theorem Drawn.trans {u v : Fin 32 → Fin 64 → Prop} {d d' d'' : Canvas} (h : Drawn u d d') (h' : Drawn v d' d'')
    (hdis : ∀ r c, u r c → ¬ v r c) : Drawn (fun r c => u r c ∨ v r c) d d'' where
  on := fun r c hrc => by
    by_cases hu : u r c
    · rw [h'.off r c (hdis r c hu), h.on r c hu]
    · rw [h'.on r c (hrc.resolve_left hu), h.off r c hu]
  off := fun r c hrc => by
    rw [h'.off r c fun hv => hrc (.inr hv), h.off r c fun hu => hrc (.inl hu)]
  erased := by
    rw [h'.erased, h.erased]
    constructor
    · rintro ((he | ⟨r, c, hu, hp⟩) | ⟨r, c, hv, hp⟩)
      · exact .inl he
      · exact .inr ⟨r, c, .inl hu, hp⟩
      · exact .inr ⟨r, c, .inr hv, by rwa [h.off r c fun hu => hdis r c hu hv] at hp⟩
    · rintro (he | ⟨r, c, hu | hv, hp⟩)
      · exact .inl (.inl he)
      · exact .inl (.inr ⟨r, c, hu, hp⟩)
      · exact .inr ⟨r, c, hv, by rwa [h.off r c fun hu => hdis r c hu hv]⟩

theorem Drawn.congr {u v : Fin 32 → Fin 64 → Prop} {d d' : Canvas} (h : Drawn u d d') (e : ∀ r c, u r c ↔ v r c) :
    Drawn v d d' := (funext fun r => funext fun c => propext (e r c) : u = v) ▸ h

theorem Drawn.none (d : Canvas) : Drawn (fun _ _ => False) d d :=
  ⟨fun _ _ h => h.elim, fun _ _ _ => rfl, by simp⟩

/-- One bit of a sprite row. -/
theorem drawBit_drawn (px row : Nat) (b : Byte) (d : Canvas) (k : Nat) :
    Drawn (fun r c => b.getLsbD (7 - k) = true ∧ row % 32 = r.val ∧ (px + k) % 64 = c.val) d (drawBit px row b d k) := by
  unfold drawBit
  split
  · next hb =>
    have hiff : ∀ (r : Fin 32) (c : Fin 64),
        (b.getLsbD (7 - k) = true ∧ row % 32 = r.val ∧ (px + k) % 64 = c.val) ↔
          r = Fin.ofNat 32 row ∧ c = Fin.ofNat 64 (px + k) := by
      intro r c
      simp only [hb, true_and, Fin.ext_iff, Fin.val_ofNat]
      omega
    refine Drawn.congr ?_ fun r c => (hiff r c).symm
    refine ⟨fun r c h => ?_, fun r c h => ?_, ?_⟩
    · simp [canvasToggle, pixelOf_togglePixel, h.1, h.2]
    · simp only [canvasToggle, pixelOf_togglePixel, if_neg h]
    · simp [canvasToggle, Bool.or_eq_true]
  · next hb => exact (Drawn.none d).congr fun r c => ⟨fun h => h.elim, fun h => hb h.1⟩

/-- The first `n` bits of a sprite row, whose columns are distinct. -/
theorem drawBits_drawn (px row : Nat) (b : Byte) (d : Canvas) (n : Nat) (hn : n ≤ 8) :
    Drawn (underBits px row b n) d ((List.range n).foldl (drawBit px row b) d) := by
  induction n with
  | zero => exact (Drawn.none d).congr fun r c => ⟨fun h => h.elim, fun ⟨k, hk, _⟩ => absurd hk (Nat.not_lt_zero k)⟩
  | succ n ih =>
    rw [List.range_succ, List.foldl_append]
    refine ((ih (by omega)).trans (drawBit_drawn px row b _ n) ?_).congr fun r c => ?_
    · rintro r c ⟨k, hk, _, _, hc⟩ ⟨_, _, hc'⟩
      omega
    · constructor
      · rintro (⟨k, hk, h⟩ | h)
        · exact ⟨k, by omega, h⟩
        · exact ⟨n, by omega, h⟩
      · rintro ⟨k, hk, h⟩
        rcases Nat.lt_succ_iff_lt_or_eq.mp hk with hk | rfl
        · exact .inl ⟨k, hk, h⟩
        · exact .inr h

/-- The rows of a sprite of at most 32 rows, which are distinct. -/
theorem drawRows_drawn (px row : Nat) (sprite : List Byte) (d : Canvas) (hlen : sprite.length ≤ 32) :
    Drawn (underRows px row sprite) d (drawRows px row sprite d) := by
  induction sprite generalizing row d with
  | nil => exact (Drawn.none d).congr fun r c => ⟨fun h => h.elim, fun ⟨i, hi, _⟩ => absurd hi (Nat.not_lt_zero i)⟩
  | cons b bs ih =>
    have hlen' : bs.length + 1 ≤ 32 := by simpa using hlen
    refine ((drawBits_drawn px row b d 8 (Nat.le_refl 8)).trans (ih (row + 1) _ (by omega)) ?_).congr fun r c => ?_
    · rintro r c ⟨k, _, _, hr, _⟩ ⟨i, hi, k', _, _, hr', _⟩
      omega
    · constructor
      · rintro (h | ⟨i, hi, h⟩)
        · exact ⟨0, by simp, by simpa using h⟩
        · exact ⟨i + 1, by simpa using hi, by simpa [Nat.add_assoc, Nat.add_comm 1 i] using h⟩
      · rintro ⟨i, hi, h⟩
        cases i with
        | zero => exact .inl (by simpa using h)
        | succ i =>
          exact .inr ⟨i, by simpa using hi, by simpa [Nat.add_assoc, Nat.add_comm 1 i] using h⟩

theorem underSprite_iff (px py : Byte) (sprite : List Byte) (r : Fin 32) (c : Fin 64) :
    underSprite px py sprite r c = true ↔ underRows px.toNat py.toNat sprite r c := by
  simp only [underSprite, underRows, underBits, List.any_eq_true, List.mem_range, Bool.and_eq_true, beq_iff_eq, and_assoc]

/-- All that `draw` does (R122): the pixels under the sprite are toggled, and `erased` says whether one of them was set. -/
theorem drawSprite_drawn (px py : Byte) (sprite : List Byte) (fb : Framebuffer) (hlen : sprite.length ≤ 32) :
    Drawn (fun r c => underSprite px py sprite r c = true) ⟨fb, false⟩ (drawSprite px py sprite fb) :=
  (drawRows_drawn px.toNat py.toNat sprite ⟨fb, false⟩ hlen).congr fun r c => (underSprite_iff px py sprite r c).symm

/-- `draw` is an XOR with the sprite's pixels. -/
theorem pixelOf_drawSprite (px py : Byte) (sprite : List Byte) (fb : Framebuffer) (hlen : sprite.length ≤ 32)
    (r : Fin 32) (c : Fin 64) :
    pixelOf (drawSprite px py sprite fb).fb r c = (pixelOf fb r c ^^ underSprite px py sprite r c) := by
  have h := drawSprite_drawn px py sprite fb hlen
  by_cases hu : underSprite px py sprite r c = true
  · rw [h.on r c hu, hu, Bool.xor_true]
  · rw [h.off r c hu, Bool.not_eq_true _ |>.mp hu, Bool.xor_false]

theorem erased_drawSprite (px py : Byte) (sprite : List Byte) (fb : Framebuffer) (hlen : sprite.length ≤ 32) :
    (drawSprite px py sprite fb).erased = true ↔
      ∃ r c, underSprite px py sprite r c = true ∧ pixelOf fb r c = true := by
  rw [(drawSprite_drawn px py sprite fb hlen).erased]
  simp

/-- A sprite that `Dxyn` draws has at most 15 rows (R53). -/
theorem State.sprite_length (s : State) (n : Nibble) : (s.sprite n).length = n.toNat := by
  simp [State.sprite, State.readBytes]

end Sys2Proof.Machine
end

