-- ==== Sys2Proof/Laws/Encoding.lean ====
section
/-! SUPPORT. The fields of the six formats and the bytes of a word: what each field of an encoded word is (30_encoding.md R51,
R52), so that no later proof unfolds a format. -/

namespace Sys2Proof

theorem selector_toNat (r : Reg) : (selector r).toNat = r.val := by
  simp only [selector, BitVec.toNat_ofNat]
  exact Nat.mod_eq_of_lt r.isLt

theorem formatA_toNat (op : Nibble) (nnn : Addr) : (formatA op nnn).toNat = op.toNat * 4096 + nnn.toNat := by
  simp only [formatA, BitVec.toNat_append]
  rw [← Nat.shiftLeft_add_eq_or_of_lt nnn.isLt, Nat.shiftLeft_eq]

theorem formatRI_toNat (op : Nibble) (x : Reg) (kk : Byte) :
    (formatRI op x kk).toNat = op.toNat * 4096 + x.val * 256 + kk.toNat := by
  simp only [formatRI, BitVec.toNat_append, selector_toNat]
  rw [← Nat.shiftLeft_add_eq_or_of_lt kk.isLt, ← Nat.shiftLeft_add_eq_or_of_lt (show x.val < 2 ^ 4 from x.isLt)]
  simp only [Nat.shiftLeft_eq]
  omega

theorem formatRR_toNat (op : Nibble) (x y : Reg) (sub : Nibble) :
    (formatRR op x y sub).toNat = op.toNat * 4096 + x.val * 256 + y.val * 16 + sub.toNat := by
  simp only [formatRR, BitVec.toNat_append, selector_toNat]
  rw [← Nat.shiftLeft_add_eq_or_of_lt sub.isLt, ← Nat.shiftLeft_add_eq_or_of_lt (show y.val < 2 ^ 4 from y.isLt),
    ← Nat.shiftLeft_add_eq_or_of_lt (show x.val < 2 ^ 4 from x.isLt)]
  simp only [Nat.shiftLeft_eq]
  omega

theorem formatR_toNat (op : Nibble) (x : Reg) (sub : Byte) :
    (formatR op x sub).toNat = op.toNat * 4096 + x.val * 256 + sub.toNat := formatRI_toNat op x sub

/-! The fields as quotients and remainders. -/

theorem opField_eq (w : Word) : opField w = w.toNat / 4096 := by
  simp only [opField, BitVec.extractLsb'_toNat, Nat.shiftRight_eq_div_pow]
  have := w.isLt; omega

theorem xField_val (w : Word) : (xField w).val = w.toNat / 256 % 16 := by
  simp only [xField, BitVec.extractLsb'_toNat, Nat.shiftRight_eq_div_pow]

theorem yField_val (w : Word) : (yField w).val = w.toNat / 16 % 16 := by
  simp only [yField, BitVec.extractLsb'_toNat, Nat.shiftRight_eq_div_pow]

theorem nField_toNat (w : Word) : (nField w).toNat = w.toNat % 16 := by
  simp only [nField, BitVec.extractLsb'_toNat, Nat.shiftRight_eq_div_pow]; omega

theorem kkField_toNat (w : Word) : (kkField w).toNat = w.toNat % 256 := by
  simp only [kkField, BitVec.extractLsb'_toNat, Nat.shiftRight_eq_div_pow]; omega

theorem nnnField_toNat (w : Word) : (nnnField w).toNat = w.toNat % 4096 := by
  simp only [nnnField, BitVec.extractLsb'_toNat, Nat.shiftRight_eq_div_pow]; omega

/-! The fields of each format. -/

@[simp] theorem opField_formatA (op : Nibble) (nnn : Addr) : opField (formatA op nnn) = op.toNat := by
  rw [opField_eq, formatA_toNat]; have := nnn.isLt; omega

@[simp] theorem nnnField_formatA (op : Nibble) (nnn : Addr) : nnnField (formatA op nnn) = nnn := by
  apply BitVec.eq_of_toNat_eq; rw [nnnField_toNat, formatA_toNat]; have := nnn.isLt; omega

@[simp] theorem opField_formatRI (op : Nibble) (x : Reg) (kk : Byte) : opField (formatRI op x kk) = op.toNat := by
  rw [opField_eq, formatRI_toNat]; have := kk.isLt; have := x.isLt; omega

@[simp] theorem xField_formatRI (op : Nibble) (x : Reg) (kk : Byte) : xField (formatRI op x kk) = x := by
  apply Fin.ext; rw [xField_val, formatRI_toNat]; have := kk.isLt; have := x.isLt; omega

@[simp] theorem kkField_formatRI (op : Nibble) (x : Reg) (kk : Byte) : kkField (formatRI op x kk) = kk := by
  apply BitVec.eq_of_toNat_eq; rw [kkField_toNat, formatRI_toNat]; have := kk.isLt; omega

@[simp] theorem opField_formatRR (op : Nibble) (x y : Reg) (sub : Nibble) :
    opField (formatRR op x y sub) = op.toNat := by
  rw [opField_eq, formatRR_toNat]; have := x.isLt; have := y.isLt; have := sub.isLt; omega

@[simp] theorem xField_formatRR (op : Nibble) (x y : Reg) (sub : Nibble) : xField (formatRR op x y sub) = x := by
  apply Fin.ext; rw [xField_val, formatRR_toNat]; have := x.isLt; have := y.isLt; have := sub.isLt; omega

@[simp] theorem yField_formatRR (op : Nibble) (x y : Reg) (sub : Nibble) : yField (formatRR op x y sub) = y := by
  apply Fin.ext; rw [yField_val, formatRR_toNat]; have := y.isLt; have := sub.isLt; omega

@[simp] theorem nField_formatRR (op : Nibble) (x y : Reg) (sub : Nibble) : nField (formatRR op x y sub) = sub := by
  apply BitVec.eq_of_toNat_eq; rw [nField_toNat, formatRR_toNat]; have := sub.isLt; omega

@[simp] theorem opField_formatR (op : Nibble) (x : Reg) (sub : Byte) : opField (formatR op x sub) = op.toNat :=
  opField_formatRI op x sub

@[simp] theorem xField_formatR (op : Nibble) (x : Reg) (sub : Byte) : xField (formatR op x sub) = x :=
  xField_formatRI op x sub

@[simp] theorem kkField_formatR (op : Nibble) (x : Reg) (sub : Byte) : kkField (formatR op x sub) = sub :=
  kkField_formatRI op x sub

/-! A word from its fields. -/

theorem formatA_fields (w : Word) (op : Nibble) (h : opField w = op.toNat) : formatA op (nnnField w) = w := by
  apply BitVec.eq_of_toNat_eq; rw [formatA_toNat, nnnField_toNat, ← h, opField_eq]; omega

theorem formatRI_fields (w : Word) (op : Nibble) (h : opField w = op.toNat) :
    formatRI op (xField w) (kkField w) = w := by
  apply BitVec.eq_of_toNat_eq; rw [formatRI_toNat, xField_val, kkField_toNat, ← h, opField_eq]; omega

theorem formatRR_fields (w : Word) (op sub : Nibble) (h : opField w = op.toNat) (hs : nField w = sub) :
    formatRR op (xField w) (yField w) sub = w := by
  apply BitVec.eq_of_toNat_eq
  rw [formatRR_toNat, xField_val, yField_val, ← hs, nField_toNat, ← h, opField_eq]; omega

theorem formatR_fields (w : Word) (op : Nibble) (sub : Byte) (h : opField w = op.toNat) (hs : kkField w = sub) :
    formatR op (xField w) sub = w := by
  rw [← hs]; exact formatRI_fields w op h

/-! The masks of R52. -/

theorem and_F000_toNat (w : Word) : (w &&& 0xF000).toNat = opField w * 4096 := by
  have h : w &&& 0xF000 = w.extractLsb' 12 4 ++ 0#12 := by
    apply BitVec.eq_of_getLsbD_eq
    intro k hk
    simp only [BitVec.getLsbD_and, BitVec.getLsbD_append, BitVec.getLsbD_extractLsb']
    interval_cases k <;> simp
  rw [h, opField]
  simp only [BitVec.toNat_append, BitVec.toNat_ofNat]
  rw [← Nat.shiftLeft_add_eq_or_of_lt (by decide), Nat.shiftLeft_eq]
  omega

theorem and_F00F_toNat (w : Word) : (w &&& 0xF00F).toNat = opField w * 4096 + (nField w).toNat := by
  have h : w &&& 0xF00F = w.extractLsb' 12 4 ++ 0#8 ++ w.extractLsb' 0 4 := by
    apply BitVec.eq_of_getLsbD_eq
    intro k hk
    simp only [BitVec.getLsbD_and, BitVec.getLsbD_append, BitVec.getLsbD_extractLsb']
    interval_cases k <;> simp
  rw [h, opField, nField]
  simp only [BitVec.toNat_append, BitVec.toNat_ofNat]
  rw [← Nat.shiftLeft_add_eq_or_of_lt (BitVec.isLt _), ← Nat.shiftLeft_add_eq_or_of_lt (by decide)]
  simp only [Nat.shiftLeft_eq]
  omega

theorem and_F0FF_toNat (w : Word) : (w &&& 0xF0FF).toNat = opField w * 4096 + (kkField w).toNat := by
  have h : w &&& 0xF0FF = w.extractLsb' 12 4 ++ 0#4 ++ w.extractLsb' 0 8 := by
    apply BitVec.eq_of_getLsbD_eq
    intro k hk
    simp only [BitVec.getLsbD_and, BitVec.getLsbD_append, BitVec.getLsbD_extractLsb']
    interval_cases k <;> simp
  rw [h, opField, kkField]
  simp only [BitVec.toNat_append, BitVec.toNat_ofNat]
  rw [← Nat.shiftLeft_add_eq_or_of_lt (BitVec.isLt _), ← Nat.shiftLeft_add_eq_or_of_lt (by decide)]
  simp only [Nat.shiftLeft_eq]
  omega

theorem and_FFFF (w : Word) : w &&& 0xFFFF = w := BitVec.and_allOnes

/-! What a row of each mask matches: the fields are those of the row's value. -/

theorem isMatch_FFFF (p : String) (v w : Word) : (OpcodeRow.mk p 0xFFFF v).isMatch w = true ↔ w = v := by
  simp only [OpcodeRow.isMatch, and_FFFF, beq_iff_eq]

theorem isMatch_F000 (p : String) (v w : Word) (hv : v.toNat % 4096 = 0) :
    (OpcodeRow.mk p 0xF000 v).isMatch w = true ↔ opField w = v.toNat / 4096 := by
  simp only [OpcodeRow.isMatch, beq_iff_eq, ← BitVec.toNat_inj, and_F000_toNat]
  omega

theorem isMatch_F00F (p : String) (v w : Word) (hv : v.toNat / 16 % 256 = 0) :
    (OpcodeRow.mk p 0xF00F v).isMatch w = true ↔ opField w = v.toNat / 4096 ∧ (nField w).toNat = v.toNat % 16 := by
  simp only [OpcodeRow.isMatch, beq_iff_eq, ← BitVec.toNat_inj, and_F00F_toNat]
  have := (nField w).isLt
  omega

theorem isMatch_F0FF (p : String) (v w : Word) (hv : v.toNat / 256 % 16 = 0) :
    (OpcodeRow.mk p 0xF0FF v).isMatch w = true ↔ opField w = v.toNat / 4096 ∧ (kkField w).toNat = v.toNat % 256 := by
  simp only [OpcodeRow.isMatch, beq_iff_eq, ← BitVec.toNat_inj, and_F0FF_toNat]
  have := (kkField w).isLt
  omega

/-- The words that some row of format Z, A, RI or RRN matches. -/
theorem any_rowsWide (w : Word) : opcodeRowsWide.any (·.isMatch w) = true ↔
    w = 0x00E0 ∨ w = 0x00EE ∨ opField w = 1 ∨ opField w = 2 ∨ opField w = 3 ∨ opField w = 4 ∨ opField w = 6 ∨
    opField w = 7 ∨ opField w = 10 ∨ opField w = 11 ∨ opField w = 12 ∨ opField w = 13 := by
  simp only [opcodeRowsWide, List.any_cons, List.any_nil, Bool.or_eq_true, isMatch_FFFF, isMatch_F000, BitVec.reduceToNat,
    Nat.reduceMod, Nat.reduceDiv, Bool.false_eq_true, or_false]

/-- The words that some row of format RR matches. -/
theorem any_rowsRR (w : Word) : opcodeRowsRR.any (·.isMatch w) = true ↔
    (opField w = 5 ∧ (nField w).toNat = 0) ∨ (opField w = 8 ∧ ((nField w).toNat ≤ 7 ∨ (nField w).toNat = 14)) ∨
    (opField w = 9 ∧ (nField w).toNat = 0) := by
  simp only [opcodeRowsRR, List.any_cons, List.any_nil, Bool.or_eq_true, isMatch_F00F, BitVec.reduceToNat,
    Nat.reduceMod, Nat.reduceDiv, Bool.false_eq_true, or_false]
  omega

/-- The words that some row of format R matches. -/
theorem any_rowsR (w : Word) : opcodeRowsR.any (·.isMatch w) = true ↔
    (opField w = 14 ∧ ((kkField w).toNat = 0x9E ∨ (kkField w).toNat = 0xA1)) ∨
    (opField w = 15 ∧ ((kkField w).toNat = 0x07 ∨ (kkField w).toNat = 0x0A ∨ (kkField w).toNat = 0x15 ∨
      (kkField w).toNat = 0x18 ∨ (kkField w).toNat = 0x1E ∨ (kkField w).toNat = 0x29 ∨ (kkField w).toNat = 0x33 ∨
      (kkField w).toNat = 0x55 ∨ (kkField w).toNat = 0x65)) := by
  simp only [opcodeRowsR, List.any_cons, List.any_nil, Bool.or_eq_true, isMatch_F0FF, BitVec.reduceToNat,
    Nat.reduceMod, Nat.reduceDiv, Bool.false_eq_true, or_false, and_or_left, or_assoc]

/-- A known word matches a row of one of the three groups. -/
theorem isKnownWord_iff (w : Word) : isKnownWord w = true ↔ opcodeRowsWide.any (·.isMatch w) = true ∨
    opcodeRowsRR.any (·.isMatch w) = true ∨ opcodeRowsR.any (·.isMatch w) = true := by
  simp only [isKnownWord, opcodeTable, List.any_append, Bool.or_eq_true, or_assoc]

/-! The rows of each group by the fields they fix. -/

/-- A row of format Z, A, RI or RRN, for a word that does not begin with 0. -/
theorem isMatch_rowsWide (w : Word) (h : opField w ≠ 0) :
    ∀ row ∈ opcodeRowsWide, row.isMatch w = true ↔ opField w = row.value.toNat / 4096 := by
  have h1 : w ≠ 0x00E0 := by rintro rfl; exact h (by decide)
  have h2 : w ≠ 0x00EE := by rintro rfl; exact h (by decide)
  simp only [opcodeRowsWide, List.forall_mem_cons, List.not_mem_nil, false_imp_iff, implies_true, isMatch_FFFF,
    isMatch_F000, BitVec.reduceToNat, Nat.reduceMod, Nat.reduceDiv, h1, h2, h]
  decide

/-- A row of format RR. -/
theorem isMatch_rowsRR (w : Word) : ∀ row ∈ opcodeRowsRR,
    row.isMatch w = true ↔ opField w = row.value.toNat / 4096 ∧ (nField w).toNat = row.value.toNat % 16 := by
  simp only [opcodeRowsRR, List.forall_mem_cons, List.not_mem_nil, false_imp_iff, implies_true, isMatch_F00F,
    BitVec.reduceToNat, Nat.reduceMod, Nat.reduceDiv, and_self]

/-- A row of format R. -/
theorem isMatch_rowsR (w : Word) : ∀ row ∈ opcodeRowsR,
    row.isMatch w = true ↔ opField w = row.value.toNat / 4096 ∧ (kkField w).toNat = row.value.toNat % 256 := by
  simp only [opcodeRowsR, List.forall_mem_cons, List.not_mem_nil, false_imp_iff, implies_true, isMatch_F0FF,
    BitVec.reduceToNat, Nat.reduceMod, Nat.reduceDiv, and_self]

/-! Bytes of a word. -/

/-- The two bytes of a word in either order, assembled in that order, are the word (R34). -/
theorem assembleWord_bytes (order : ByteOrder) (w : Word) (rest : List Byte) :
    ∃ first second, wordBytes order w ++ rest = first :: second :: rest ∧ assembleWord order first second = w := by
  have h : (w.extractLsb' 8 8 ++ w.extractLsb' 0 8 : Word) = w := by
    apply BitVec.eq_of_toNat_eq
    rw [BitVec.toNat_append, ← Nat.shiftLeft_add_eq_or_of_lt (BitVec.isLt _)]
    simp only [BitVec.extractLsb'_toNat, Nat.shiftLeft_eq, Nat.shiftRight_eq_div_pow]
    have := w.isLt
    omega
  cases order <;> exact ⟨_, _, rfl, h⟩

/-- The decoder reads back the word whose bytes it is given. -/
theorem decode_bytes (order : ByteOrder) (w : Word) (rest : List Byte) :
    decode order (wordBytes order w ++ rest) = .ok (decodeWord w, rest) := by
  obtain ⟨first, second, hb, hw⟩ := assembleWord_bytes order w rest
  rw [hb, decode, hw]

end Sys2Proof
end

