-- ==== Sys2Proof/Laws/PerInstr.lean ====
section
/-! SUPPORT. One lemma per instruction: its encoded word is an instance of its own row of the opcode table and of no other
(30_encoding.md R52, R54, R55). -/

-- One lemma at a time: side by side, their threads ask for more stack than a build may have.
set_option Elab.async false

namespace Sys2Proof.Laws.EncodesItsPattern

/-- The word of a well-formed instruction matches exactly the row of the instruction's pattern. -/
def Statement (i : Instr) : Prop :=
  i.wellFormed = true → ∀ row ∈ opcodeTable, row.isMatch (encode i) = true ↔ row.pattern = i.pattern

/-- The group of rows an instruction's row is in decides by its fields, and no other row fits (a closed fact of the table). -/
def FitsAmong (rows : List OpcodeRow) (p : String) (fits : OpcodeRow → Bool) : Bool :=
  rows.all fun row => fits row == (row.pattern == p)

/-- The statement from what the fields of the word say about the rows of each group. -/
theorem of_fits (i : Instr) (h0 : opField (encode i) ≠ 0)
    (hWide : FitsAmong opcodeRowsWide i.pattern fun row => opField (encode i) == row.value.toNat / 4096)
    (hRR : FitsAmong opcodeRowsRR i.pattern fun row =>
      opField (encode i) == row.value.toNat / 4096 && (nField (encode i)).toNat == row.value.toNat % 16)
    (hR : FitsAmong opcodeRowsR i.pattern fun row =>
      opField (encode i) == row.value.toNat / 4096 && (kkField (encode i)).toNat == row.value.toNat % 256) :
    Statement i := by
  intro _ row h
  simp only [FitsAmong, List.all_eq_true, beq_iff_eq] at hWide hRR hR
  simp only [opcodeTable, List.mem_append] at h
  rcases h with (h | h) | h
  · rw [isMatch_rowsWide _ h0 row h, ← beq_iff_eq, hWide row h, beq_iff_eq]
  · rw [isMatch_rowsRR _ row h, ← beq_iff_eq (a := row.pattern), ← hRR row h, Bool.and_eq_true, beq_iff_eq, beq_iff_eq]
  · rw [isMatch_rowsR _ row h, ← beq_iff_eq (a := row.pattern), ← hR row h, Bool.and_eq_true, beq_iff_eq, beq_iff_eq]

theorem cls : Statement .cls := by
  intro _; decide

theorem ret : Statement .ret := by
  intro _; decide

theorem jp (nnn : Addr) : Statement (.jp nnn) := by
  refine of_fits _ ?_ ?_ ?_ ?_ <;> simp only [encode, opField_formatA] <;> first | decide | rfl

theorem call (nnn : Addr) : Statement (.call nnn) := by
  refine of_fits _ ?_ ?_ ?_ ?_ <;> simp only [encode, opField_formatA] <;> first | decide | rfl

theorem seImm (x : Reg) (kk : Byte) : Statement (.seImm x kk) := by
  refine of_fits _ ?_ ?_ ?_ ?_ <;> simp only [encode, opField_formatRI] <;> first | decide | rfl

theorem sneImm (x : Reg) (kk : Byte) : Statement (.sneImm x kk) := by
  refine of_fits _ ?_ ?_ ?_ ?_ <;> simp only [encode, opField_formatRI] <;> first | decide | rfl

theorem seReg (x : Reg) (y : Reg) : Statement (.seReg x y) := by
  refine of_fits _ ?_ ?_ ?_ ?_ <;> simp only [encode, opField_formatRR, nField_formatRR] <;> first | decide | rfl

theorem ldImm (x : Reg) (kk : Byte) : Statement (.ldImm x kk) := by
  refine of_fits _ ?_ ?_ ?_ ?_ <;> simp only [encode, opField_formatRI] <;> first | decide | rfl

theorem addImm (x : Reg) (kk : Byte) : Statement (.addImm x kk) := by
  refine of_fits _ ?_ ?_ ?_ ?_ <;> simp only [encode, opField_formatRI] <;> first | decide | rfl

theorem ldReg (x : Reg) (y : Reg) : Statement (.ldReg x y) := by
  refine of_fits _ ?_ ?_ ?_ ?_ <;> simp only [encode, opField_formatRR, nField_formatRR] <;> first | decide | rfl

theorem orReg (x : Reg) (y : Reg) : Statement (.orReg x y) := by
  refine of_fits _ ?_ ?_ ?_ ?_ <;> simp only [encode, opField_formatRR, nField_formatRR] <;> first | decide | rfl

theorem andReg (x : Reg) (y : Reg) : Statement (.andReg x y) := by
  refine of_fits _ ?_ ?_ ?_ ?_ <;> simp only [encode, opField_formatRR, nField_formatRR] <;> first | decide | rfl

theorem xorReg (x : Reg) (y : Reg) : Statement (.xorReg x y) := by
  refine of_fits _ ?_ ?_ ?_ ?_ <;> simp only [encode, opField_formatRR, nField_formatRR] <;> first | decide | rfl

theorem addReg (x : Reg) (y : Reg) : Statement (.addReg x y) := by
  refine of_fits _ ?_ ?_ ?_ ?_ <;> simp only [encode, opField_formatRR, nField_formatRR] <;> first | decide | rfl

theorem subReg (x : Reg) (y : Reg) : Statement (.subReg x y) := by
  refine of_fits _ ?_ ?_ ?_ ?_ <;> simp only [encode, opField_formatRR, nField_formatRR] <;> first | decide | rfl

theorem shr (x : Reg) (y : Reg) : Statement (.shr x y) := by
  refine of_fits _ ?_ ?_ ?_ ?_ <;> simp only [encode, opField_formatRR, nField_formatRR] <;> first | decide | rfl

theorem subnReg (x : Reg) (y : Reg) : Statement (.subnReg x y) := by
  refine of_fits _ ?_ ?_ ?_ ?_ <;> simp only [encode, opField_formatRR, nField_formatRR] <;> first | decide | rfl

theorem shl (x : Reg) (y : Reg) : Statement (.shl x y) := by
  refine of_fits _ ?_ ?_ ?_ ?_ <;> simp only [encode, opField_formatRR, nField_formatRR] <;> first | decide | rfl

theorem sneReg (x : Reg) (y : Reg) : Statement (.sneReg x y) := by
  refine of_fits _ ?_ ?_ ?_ ?_ <;> simp only [encode, opField_formatRR, nField_formatRR] <;> first | decide | rfl

theorem ldI (nnn : Addr) : Statement (.ldI nnn) := by
  refine of_fits _ ?_ ?_ ?_ ?_ <;> simp only [encode, opField_formatA] <;> first | decide | rfl

theorem jpV0 (nnn : Addr) : Statement (.jpV0 nnn) := by
  refine of_fits _ ?_ ?_ ?_ ?_ <;> simp only [encode, opField_formatA] <;> first | decide | rfl

theorem rnd (x : Reg) (kk : Byte) : Statement (.rnd x kk) := by
  refine of_fits _ ?_ ?_ ?_ ?_ <;> simp only [encode, opField_formatRI] <;> first | decide | rfl

theorem drw (x : Reg) (y : Reg) (n : Nibble) : Statement (.drw x y n) := by
  refine of_fits _ ?_ ?_ ?_ ?_ <;> simp only [encode, opField_formatRR] <;> first | decide | rfl

theorem skp (x : Reg) : Statement (.skp x) := by
  refine of_fits _ ?_ ?_ ?_ ?_ <;> simp only [encode, opField_formatR, kkField_formatR] <;> first | decide | rfl

theorem sknp (x : Reg) : Statement (.sknp x) := by
  refine of_fits _ ?_ ?_ ?_ ?_ <;> simp only [encode, opField_formatR, kkField_formatR] <;> first | decide | rfl

theorem ldVxDt (x : Reg) : Statement (.ldVxDt x) := by
  refine of_fits _ ?_ ?_ ?_ ?_ <;> simp only [encode, opField_formatR, kkField_formatR] <;> first | decide | rfl

theorem ldVxK (x : Reg) : Statement (.ldVxK x) := by
  refine of_fits _ ?_ ?_ ?_ ?_ <;> simp only [encode, opField_formatR, kkField_formatR] <;> first | decide | rfl

theorem ldDtVx (x : Reg) : Statement (.ldDtVx x) := by
  refine of_fits _ ?_ ?_ ?_ ?_ <;> simp only [encode, opField_formatR, kkField_formatR] <;> first | decide | rfl

theorem ldStVx (x : Reg) : Statement (.ldStVx x) := by
  refine of_fits _ ?_ ?_ ?_ ?_ <;> simp only [encode, opField_formatR, kkField_formatR] <;> first | decide | rfl

theorem addI (x : Reg) : Statement (.addI x) := by
  refine of_fits _ ?_ ?_ ?_ ?_ <;> simp only [encode, opField_formatR, kkField_formatR] <;> first | decide | rfl

theorem ldF (x : Reg) : Statement (.ldF x) := by
  refine of_fits _ ?_ ?_ ?_ ?_ <;> simp only [encode, opField_formatR, kkField_formatR] <;> first | decide | rfl

theorem ldB (x : Reg) : Statement (.ldB x) := by
  refine of_fits _ ?_ ?_ ?_ ?_ <;> simp only [encode, opField_formatR, kkField_formatR] <;> first | decide | rfl

theorem ldMemVx (x : Reg) : Statement (.ldMemVx x) := by
  refine of_fits _ ?_ ?_ ?_ ?_ <;> simp only [encode, opField_formatR, kkField_formatR] <;> first | decide | rfl

theorem ldVxMem (x : Reg) : Statement (.ldVxMem x) := by
  refine of_fits _ ?_ ?_ ?_ ?_ <;> simp only [encode, opField_formatR, kkField_formatR] <;> first | decide | rfl

theorem unknown (w : Word) : Statement (.unknown w) := by
  intro h row hr
  have hw : ∀ row ∈ opcodeTable, ¬ row.isMatch w = true := by
    simpa only [Instr.wellFormed, Bool.not_eq_true', isKnownWord, List.any_eq_false] using h
  have hp : ∀ row ∈ opcodeTable, row.pattern ≠ "(any other word)" := by decide
  exact iff_of_false (hw row hr) (hp row hr)

end Sys2Proof.Laws.EncodesItsPattern
end

