-- ==== Sys2Proof/Laws/Step.lean ====
section
/-! SUPPORT. What each shared operation of a step can do, said once: the flag and result writers, block stores, the
completion of a wait, `push` and `pop`, the CPU step by cases, and the step of a given move. -/

namespace Sys2Proof.Machine

/-! Flag and result (R103). -/

/-- A flag and result that were known before either was written: who is last stays in a register that is both. -/
theorem State.writeSampled_reg (s : State) (x : Reg) (flag : Bool) (result : Byte) (r : Reg) :
    (s.writeSampled x flag result).reg r =
      if r = x ∧ (x = vF → s.cfg.vfOperand ≠ .flagLast) then result else if r = vF then flagByte flag else s.reg r := by
  unfold State.writeSampled
  cases s.cfg.vfOperand <;> by_cases h1 : r = x <;> by_cases h2 : r = vF <;>
    simp_all [State.writeFlagResult_reg, State.reg_setReg]

theorem State.writeSampled_frame (s : State) (x : Reg) (flag : Bool) (result : Byte) :
    Unchanged (fun p => p = .reg x ∨ p = .reg vF) s (s.writeSampled x flag result) := by
  intro p hp
  unfold State.writeSampled
  cases s.cfg.vfOperand <;> cases p <;>
    first | rfl | (simp_all [Part.same, State.writeFlagResult_reg, State.reg_setReg])

/-- With the operands read first, the two assignments are a flag and result known before either is written. -/
theorem State.flagAndResult_sampled (s : State) (x y : Reg) (f : Byte → Byte → Bool) (r : Byte → Byte → Byte)
    (h : s.cfg.vfOperand ≠ .sequentialText) :
    s.flagAndResult x y f r = s.writeSampled x (f (s.reg x) (s.reg y)) (r (s.reg x) (s.reg y)) := by
  unfold State.flagAndResult
  cases hp : s.cfg.vfOperand with
  | sequentialText => exact absurd hp h
  | sampleFlagResult => rfl
  | flagLast => rfl

/-- With the registers re-read, the flag's write is seen by the result's operands. -/
theorem State.flagAndResult_sequential (s : State) (x y : Reg) (f : Byte → Byte → Bool) (r : Byte → Byte → Byte)
    (h : s.cfg.vfOperand = .sequentialText) :
    s.flagAndResult x y f r =
      (s.setReg vF (flagByte (f (s.reg x) (s.reg y)))).setReg x
        (r ((s.setReg vF (flagByte (f (s.reg x) (s.reg y)))).reg x)
          ((s.setReg vF (flagByte (f (s.reg x) (s.reg y)))).reg y)) := by
  unfold State.flagAndResult
  rw [h]

/-- The result and the flag, where the spec's policy holds or neither operand that is read again is `VF`. -/
theorem State.flagAndResult_reg (s : State) (x y : Reg) (f : Byte → Byte → Bool) (r : Byte → Byte → Byte)
    (h : s.cfg.vfOperand = .sampleFlagResult ∨ (x ≠ vF ∧ (y ≠ vF ∨ ∀ a b b', r a b = r a b'))) :
    (s.flagAndResult x y f r).reg x = r (s.reg x) (s.reg y) ∧
      (x ≠ vF → (s.flagAndResult x y f r).reg vF = flagByte (f (s.reg x) (s.reg y))) := by
  by_cases hp : s.cfg.vfOperand = .sequentialText
  · obtain ⟨h1, h2⟩ := h.resolve_left (by simp [hp])
    rw [State.flagAndResult_sequential s x y f r hp]
    simp only [State.reg_setReg, if_neg h1, if_neg (Ne.symm h1), if_true]
    refine ⟨?_, fun _ => trivial⟩
    rcases h2 with h2 | h2
    · rw [if_neg h2]
    · exact h2 _ _ _
  · rw [State.flagAndResult_sampled s x y f r hp]
    simp only [State.writeSampled_reg]
    refine ⟨?_, fun hx => by simp [Ne.symm hx]⟩
    rw [if_pos]
    exact ⟨trivial, fun hx => by rcases h with h | h <;> simp_all⟩

/-- Nothing but the two registers changes, under every policy. -/
theorem State.flagAndResult_frame (s : State) (x y : Reg) (f : Byte → Byte → Bool) (r : Byte → Byte → Byte) :
    Unchanged (fun p => p = .reg x ∨ p = .reg vF) s (s.flagAndResult x y f r) := by
  by_cases hp : s.cfg.vfOperand = .sequentialText
  · rw [State.flagAndResult_sequential s x y f r hp]
    intro p hp
    cases p <;> first | rfl | (simp_all [Part.same, State.reg_setReg])
  · rw [State.flagAndResult_sampled s x y f r hp]
    exact s.writeSampled_frame x _ _

/-! Block stores (R38). -/

/-- Nothing but the stored bytes changes. -/
theorem State.storeBytes_frame (s : State) (base : Nat) (bytes : List Byte) :
    Unchanged (fun p => ∃ a ∈ effectiveAddrs base bytes.length, p = .byte a) s (s.storeBytes base bytes) := by
  intro p hp
  cases p with
  | byte a =>
    simp only [Part.same, State.readByte_storeBytes]
    rw [dif_neg]
    intro h
    exact hp ⟨a, (mem_effectiveAddrs _ _ _).mpr (by omega), rfl⟩
  | _ => simp [Part.same]

/-- What an instruction can do to memory: nothing, or one block store inside memory and, under the spec's font policy,
above the font. -/
theorem exec_memory (i : Instr) (s t : State) (h : exec i s = .next t) :
    t.mem = s.mem ∨ ∃ base bytes, t.mem = (s.storeBytes base bytes).mem ∧ base + bytes.length ≤ s.cfg.memSize ∧
      (80 ≤ base ∨ s.cfg.fontWrite ≠ .fault) := by
  cases i with
  | ret =>
    simp only [exec, execRet] at h
    split at h <;> cases h <;> left
    · next hp => unfold State.pop at hp; split at hp <;> simp at hp; rw [← hp]
    · rfl
  | call nnn =>
    simp only [exec, execCall] at h
    split at h <;> cases h <;> left
    · next hp => unfold State.push at hp; split at hp <;> simp at hp; rw [← hp]; rfl
    · rfl
  | skp x =>
    simp only [exec, execSkp] at h
    split at h <;> cases h <;> left
    · unfold State.skipIf; split <;> rfl
    · rfl
  | sknp x =>
    simp only [exec, execSknp] at h
    split at h <;> cases h <;> left
    · unfold State.skipIf; split <;> rfl
    · rfl
  | drw x y n =>
    simp only [exec, execDrw] at h
    rcases s.afterReads_cases s.i.toNat n.toNat (s.drawn x y n) with ⟨_, e⟩ | e <;>
      rw [e] at h <;> cases h <;> exact .inl rfl
  | ldVxMem x =>
    simp only [exec, execLdVxMem] at h
    rcases s.afterReads_cases s.i.toNat (x.val + 1) (s.loadBlock x s.i.toNat) with ⟨_, e⟩ | e <;>
      rw [e] at h <;> cases h <;> exact .inl rfl
  | ldB x =>
    simp only [exec, execLdB] at h
    rcases s.afterWrites_cases s.i.toNat 3 (by omega) (s.storeBytes s.i.toNat (decimalDigits (s.reg x))) with
      ⟨_, _, _, e⟩ | ⟨h1, h2, e⟩ <;> rw [e] at h <;> cases h
    · exact .inl rfl
    · exact .inr ⟨_, _, rfl, h1, h2⟩
  | ldMemVx x =>
    simp only [exec, execLdMemVx] at h
    rcases s.afterWrites_cases s.i.toNat (x.val + 1) (by omega) (s.storeBytes s.i.toNat (s.regBlock x)) with
      ⟨_, _, _, e⟩ | ⟨h1, h2, e⟩ <;> rw [e] at h <;> cases h
    · exact .inl rfl
    · exact .inr ⟨_, _, rfl, by simpa [State.regBlock] using h1, h2⟩
  | unknown w => cases h; left; unfold State.signalUnknown; split <;> rfl
  | seImm _ _ | sneImm _ _ | seReg _ _ | sneReg _ _ => cases h; left; unfold State.skipIf; split <;> rfl
  | addReg x y => cases h; left; unfold State.writeSampled; split <;> rfl
  | subReg _ _ | subnReg _ _ | shr _ _ | shl _ _ =>
    cases h; left; unfold State.flagAndResult State.writeSampled; split <;> first | rfl | (split <;> rfl)
  | _ => cases h; exact .inl rfl

/-! Completion of a wait (R134). -/

/-- The lowest held key is delivered and nothing is drawn. -/
theorem State.keyDelivered_held (s : State) (k : Key) (hk : s.held k = true) (hlow : ∀ j, j < k → s.held j = false) :
    s.keyDelivered = (BitVec.ofNat 8 k.val, s) := by
  simp [State.keyDelivered, (State.lowestHeld_some s k).mpr ⟨hk, hlow⟩]

/-- With no key held a free byte is drawn (D13). -/
theorem State.keyDelivered_none (s : State) (h : ∀ k, s.held k = false) : s.keyDelivered = s.drawByte := by
  simp [State.keyDelivered, (State.lowestHeld_none s).mpr h]

/-- The state after a delivery differs in the count of draws alone. -/
theorem State.keyDelivered_state (s : State) : ∃ n, s.keyDelivered.2 = { s with draws := n } := by
  unfold State.keyDelivered
  split <;> exact ⟨_, rfl⟩

/-! The CPU step by cases (R67 to R72). -/

/-- A CPU step in `Running` halts, raises `FETCH_BOUNDS`, or runs the decoded instruction. -/
theorem runningStep_cases (s t : State) (h : runningStep s = .next t) :
    (s.cfg.memSize ≤ s.pc.toNat ∧ t = s.halt) ∨
      (s.pc.toNat + 1 = s.cfg.memSize ∧ t = s.raiseAt s.pc .fetchBounds s.pc.toNat) ∨
      (s.pc.toNat + 1 < s.cfg.memSize ∧ exec (decodeWord s.fetchWord) s.advanced = .next t) := by
  unfold runningStep at h
  split at h
  · next hp => cases h; exact .inl ⟨hp, rfl⟩
  · split at h
    · next hp => cases h; exact .inr (.inl ⟨hp, rfl⟩)
    · exact .inr (.inr ⟨by omega, h⟩)

/-- A CPU step that goes on runs, idles in a wait, or completes one. -/
theorem cpuStep_cases (s t : State) (h : cpuStep s = .next t) :
    (s.status = .running ∧ runningStep s.begun = .next t) ∨
      ∃ x, s.status = .waitKey x ∧ ((s.keyFlag = false ∧ t = s) ∨ (s.keyFlag = true ∧ t = s.begun.completeWait x)) := by
  unfold cpuStep at h
  split at h
  · next hs => exact .inl ⟨hs, h⟩
  · next x hs =>
    refine .inr ⟨x, hs, ?_⟩
    split at h <;> cases h
    · next hk => exact .inr ⟨hk, rfl⟩
    · next hk => exact .inl ⟨by simpa using hk, rfl⟩
  · cases h
  · cases h

/-! The step of a given move (R65, R66). -/

theorem step_of_nextMove (s : State) (m : Move) (h : s.nextMove = m) : step s = moveStep m s.unscheduled := by
  rw [step, h]

theorem nextMove_of_schedule (s : State) (m : Move) (rest : List Move) (h : s.schedule = m :: rest) :
    s.nextMove = m := by
  simp [State.nextMove, h]

end Sys2Proof.Machine
end

