-- ==== Sys2Proof/Tests/Slice0.lean ====
section
/-! SUPPORT. Tests: the well-formedness check, the decoding of every constructor from words written out from 30_encoding.md R52
and R55, single steps with the values of 95_test_vectors.md (T1 to T29), and, for every obligation with hypotheses, a state and
operands that meet them. -/

namespace Sys2Proof.Tests

open Sys2Proof Sys2Proof.Machine

/-! Helpers. -/

/-- After `Reset`, with the fetch at `0x200` made: what a meaning starts from (R68). -/
def entry : State := { State.reset with pc := 0x202 }

/-- Some registers given values. -/
def withRegs (s : State) (regs : List (Reg × Byte)) : State := regs.foldl (fun t p => t.setReg p.1 p.2) s

/-- The entry state with some registers and `I`. -/
def entryWith (regs : List (Reg × Byte)) (i : Addr) : State := { withRegs entry regs with i := i }

/-- The answer is a next state with a property. -/
def next (r : Result) (p : State → Bool) : Bool :=
  match r with
  | .next t => p t
  | .fault _ => false
  | .refused _ => false

/-- A fault entry with this record, `pc` at the address after the instruction's (R141). -/
def faulted (t : State) (cause : FaultCause) (addr info : Word) : Bool :=
  t.status == .faulted && t.fault == ⟨cause, addr, info⟩ && t.pc == 0x202

/-! Well-formedness (R54, R56): the one check there is, and the operand ranges, which the types hold. -/

theorem test_wellFormed_refuses_a_known_word : (Instr.unknown 0x8124).wellFormed = false := by decide
theorem test_wellFormed_refuses_cls_as_unknown : (Instr.unknown 0x00E0).wellFormed = false := by decide
theorem test_wellFormed_accepts_an_unknown_word : (Instr.unknown 0x5121).wellFormed = true := by decide
theorem test_wellFormed_accepts_a_pattern : (Instr.drw 0 15 15).wellFormed = true := by decide

/-! Decoding: a word of every constructor, in binary by its fields (R51, R52, R55). -/

theorem test_decode_formatZ : decodeWord 0b0000000011100000 = .cls ∧ decodeWord 0b0000000011101110 = .ret := by decide

theorem test_decode_formatA :
    decodeWord 0b0001101010111100 = .jp 0xABC ∧ decodeWord 0b0010001100000000 = .call 0x300 ∧
    decodeWord 0b1010000100100011 = .ldI 0x123 ∧ decodeWord 0b1011111111111111 = .jpV0 0xFFF := by decide

theorem test_decode_formatRI :
    decodeWord 0b0011001101000010 = .seImm 3 0x42 ∧ decodeWord 0b0100001101000010 = .sneImm 3 0x42 ∧
    decodeWord 0b0110101010011100 = .ldImm 10 0x9C ∧ decodeWord 0b0111000111111111 = .addImm 1 0xFF ∧
    decodeWord 0b1100000100001111 = .rnd 1 0x0F := by decide

theorem test_decode_formatRR :
    decodeWord 0b0101000100100000 = .seReg 1 2 ∧ decodeWord 0b1000000100100000 = .ldReg 1 2 ∧
    decodeWord 0b1000000100100001 = .orReg 1 2 ∧ decodeWord 0b1000000100100010 = .andReg 1 2 ∧
    decodeWord 0b1000000100100011 = .xorReg 1 2 ∧ decodeWord 0b1000000100100100 = .addReg 1 2 := by decide

theorem test_decode_formatRR_second_half :
    decodeWord 0b1000000100100101 = .subReg 1 2 ∧ decodeWord 0b1000000100100110 = .shr 1 2 ∧
    decodeWord 0b1000000100100111 = .subnReg 1 2 ∧ decodeWord 0b1000000100101110 = .shl 1 2 ∧
    decodeWord 0b1001000100100000 = .sneReg 1 2 ∧ decodeWord 0b1101000011110001 = .drw 0 15 1 := by decide

theorem test_decode_formatR :
    decodeWord 0b1110000110011110 = .skp 1 ∧ decodeWord 0b1110000110100001 = .sknp 1 ∧
    decodeWord 0b1111001100000111 = .ldVxDt 3 ∧ decodeWord 0b1111001000001010 = .ldVxK 2 ∧
    decodeWord 0b1111000000010101 = .ldDtVx 0 ∧ decodeWord 0b1111010000011000 = .ldStVx 4 := by decide

theorem test_decode_formatR_second_half :
    decodeWord 0b1111000100011110 = .addI 1 ∧ decodeWord 0b1111001000101001 = .ldF 2 ∧
    decodeWord 0b1111101000110011 = .ldB 10 ∧ decodeWord 0b1111001001010101 = .ldMemVx 2 ∧
    decodeWord 0b1111001001100101 = .ldVxMem 2 := by decide

/-- T13. -/
theorem test_decode_unknown :
    ([0x0000, 0x0123, 0x00E1, 0x00FF, 0x5121, 0x9ABF, 0x8128, 0x812F, 0x812D, 0xE19F, 0xE100, 0xF100, 0xF175, 0xF185, 0xF1FF,
      0xFFFF] : List Word).all (fun w => decodeWord w == .unknown w) = true := by decide

/-- R50: a word is two bytes; T12: the first one is the high one. -/
theorem test_decode_bytes :
    decode .highFirst [0x6A, 0x9C, 0x12] = .ok (.ldImm 10 0x9C, [0x12]) ∧
    decode .highFirst [0x6A] = .error (.truncated 1) ∧ decode .highFirst [] = .error (.truncated 0) := by decide

/-- D2's other order. -/
theorem test_decode_low_byte_first : decode .lowFirst [0x9C, 0x6A] = .ok (.ldImm 10 0x9C, []) := by decide

/-- The table's word of `Fx65`, by the host's numbering. -/
theorem test_decodeTableWord : decodeTableWord 16 0xF265 = some (.ldVxMem 2) := by decide

/-- T3, the encoder's side: the ignored `y` is kept. -/
theorem test_encode_keeps_the_ignored_field : encode (.shr 1 14) = 0x81E6 ∧ encodeBytes .highFirst (.call 0x456) = [0x24, 0x56] := by decide

/-! Control transfer (T9 to T14). -/

theorem test_ret : next (exec .ret { entry with sp := 1, stack := entry.stack.set 0 0x206 }) (fun t =>
    t.pc == 0x206 && t.sp == 0 && t.slot 0 == 0x206) = true := by decide

theorem test_ret_empty : next (exec .ret entry) (fun t => faulted t .stackUnderflow 0x200 0 && t.sp == 0) = true := by decide

theorem test_jp : next (exec (.jp 0xABC) entry) (fun t => t.pc == 0xABC) = true := by decide

theorem test_call : next (exec (.call 0x300) { entry with sp := 15 }) (fun t =>
    t.pc == 0x300 && t.sp == 16 && t.slot 15 == 0x202 && t.slot 14 == 0) = true := by decide

theorem test_call_full : next (exec (.call 0x300) { entry with sp := 16 }) (fun t =>
    faulted t .stackOverflow 0x200 0 && t.sp == 16 && t.stack == entry.stack) = true := by decide

theorem test_seImm : next (exec (.seImm 3 0x42) (entryWith [(3, 0x42)] 0)) (fun t => t.pc == 0x204) = true := by decide
theorem test_seImm_not : next (exec (.seImm 3 0x43) (entryWith [(3, 0x42)] 0)) (fun t => t.pc == 0x202) = true := by decide
theorem test_sneImm : next (exec (.sneImm 3 0x00) (entryWith [(3, 0x42)] 0)) (fun t => t.pc == 0x204) = true := by decide
theorem test_sneImm_not : next (exec (.sneImm 3 0x42) (entryWith [(3, 0x42)] 0)) (fun t => t.pc == 0x202) = true := by decide
theorem test_seReg : next (exec (.seReg 1 2) (entryWith [(1, 7), (2, 7)] 0)) (fun t => t.pc == 0x204) = true := by decide
theorem test_seReg_not : next (exec (.seReg 1 4) (entryWith [(1, 7), (4, 8)] 0)) (fun t => t.pc == 0x202) = true := by decide
theorem test_sneReg : next (exec (.sneReg 1 4) (entryWith [(1, 7), (4, 8)] 0)) (fun t => t.pc == 0x204) = true := by decide
theorem test_sneReg_self : next (exec (.sneReg 3 3) (entryWith [(3, 7)] 0)) (fun t => t.pc == 0x202) = true := by decide

theorem test_jpV0 : next (exec (.jpV0 0xFFF) (entryWith [(0, 0xFF), (15, 1)] 0)) (fun t => t.pc == 0x10FE) = true := by decide

/-- D3's other width: the sum wraps at 4096. -/
theorem test_jpV0_twelve_bits :
    next (exec (.jpV0 0xFFF) { entryWith [(0, 0xFF)] 0 with cfg := { Config.spec with pcLen := .twelve } }) (fun t =>
      t.pc == 0x0FE) = true := by decide

theorem test_unknown : exec (.unknown 0x0123) entry = .next entry := rfl

theorem test_unknown_signalled :
    next (exec (.unknown 0x0123) { entry with cfg := { Config.spec with unknownSignal := true } }) (fun t =>
      t.outputs == [.unknownOpcode 0x200 0x123] && t.pc == 0x202) = true := by decide

/-! Registers, arithmetic, shifts (T1 to T3, T15, T16). -/

theorem test_ldImm : next (exec (.ldImm 15 7) entry) (fun t => t.reg 15 == 7 && t.pc == 0x202) = true := by decide

theorem test_addImm : next (exec (.addImm 0 5) (entryWith [(0, 0xFE)] 0)) (fun t => t.reg 0 == 3 && t.reg 15 == 0) = true := by
  decide

theorem test_ldReg : next (exec (.ldReg 1 15) (entryWith [(15, 1)] 0)) (fun t => t.reg 1 == 1 && t.reg 15 == 1) = true := by
  decide

theorem test_orReg : next (exec (.orReg 1 2) (entryWith [(1, 0xF0), (2, 0x0F), (15, 1)] 0)) (fun t =>
    t.reg 1 == 0xFF && t.reg 2 == 0x0F && t.reg 15 == 1) = true := by decide

theorem test_andReg : next (exec (.andReg 1 2) (entryWith [(1, 0xF0), (2, 0x3C)] 0)) (fun t => t.reg 1 == 0x30) = true := by decide

theorem test_xorReg : next (exec (.xorReg 1 2) (entryWith [(1, 0xF0), (2, 0x3C)] 0)) (fun t => t.reg 1 == 0xCC) = true := by decide

theorem test_addReg : next (exec (.addReg 1 2) (entryWith [(1, 0xFF), (2, 0x01)] 0)) (fun t =>
    t.reg 1 == 0 && t.reg 15 == 1) = true := by decide

theorem test_addReg_vF : next (exec (.addReg 15 1) (entryWith [(15, 0xF0), (1, 0x20)] 0)) (fun t => t.reg 15 == 0x10) = true := by
  decide

theorem test_subReg_equal : next (exec (.subReg 1 2) (entryWith [(1, 5), (2, 5), (15, 1)] 0)) (fun t =>
    t.reg 1 == 0 && t.reg 15 == 0) = true := by decide

theorem test_subReg_vF : next (exec (.subReg 1 15) (entryWith [(1, 5), (15, 3)] 0)) (fun t =>
    t.reg 1 == 2 && t.reg 15 == 1) = true := by decide

theorem test_shr : next (exec (.shr 1 2) (entryWith [(1, 0x05), (2, 0xFF)] 0)) (fun t =>
    t.reg 1 == 2 && t.reg 15 == 1 && t.reg 2 == 0xFF) = true := by decide

theorem test_shr_vF : next (exec (.shr 15 0) (entryWith [(15, 7)] 0)) (fun t => t.reg 15 == 3) = true := by decide

theorem test_subnReg : next (exec (.subnReg 1 2) (entryWith [(1, 5), (2, 3), (15, 1)] 0)) (fun t =>
    t.reg 1 == 0xFE && t.reg 15 == 0) = true := by decide

theorem test_subnReg_vF : next (exec (.subnReg 15 1) (entryWith [(15, 3), (1, 5)] 0)) (fun t => t.reg 15 == 2) = true := by decide

theorem test_shl : next (exec (.shl 1 2) (entryWith [(1, 0x81)] 0)) (fun t => t.reg 1 == 2 && t.reg 15 == 1) = true := by decide

theorem test_shl_vF : next (exec (.shl 15 0) (entryWith [(15, 0x81)] 0)) (fun t => t.reg 15 == 2) = true := by decide

/-- T16's comparison: the two other policies. -/
theorem test_vfOperand_policies :
    next (exec (.subReg 1 15) { entryWith [(1, 5), (15, 3)] 0 with cfg := { Config.spec with vfOperand := .sequentialText } })
      (fun t => t.reg 1 == 4 && t.reg 15 == 1) = true ∧
    next (exec (.subReg 15 1) { entryWith [(1, 3), (15, 5)] 0 with cfg := { Config.spec with vfOperand := .flagLast } })
      (fun t => t.reg 15 == 1) = true := by decide

/-- R103's alternatives on T16's `0x8F14`: under `flag_last` the carry stays; under `sequential_text` the sum does (R96). -/
theorem test_addReg_policies :
    next (exec (.addReg 15 1) { entryWith [(1, 0x20), (15, 0xF0)] 0 with cfg := { Config.spec with vfOperand := .flagLast } })
      (fun t => t.reg 15 == 1) = true ∧
    next (exec (.addReg 15 1) { entryWith [(1, 0x20), (15, 0xF0)] 0 with cfg := { Config.spec with vfOperand := .sequentialText } })
      (fun t => t.reg 15 == 0x10) = true := by decide

theorem test_rnd : exec (.rnd 1 0x0F) entry = .next ({ entry with draws := 1 }.setReg 1 (Config.freeByte 0 &&& 0x0F)) := rfl

/-! Address register and memory (T6, T7, T17, T18). -/

theorem test_ldI : next (exec (.ldI 0x123) entry) (fun t => t.i == 0x123) = true := by decide

theorem test_addI : next (exec (.addI 1) (entryWith [(1, 2), (15, 0)] 0xFFF)) (fun t => t.i == 0x001 && t.reg 15 == 0) = true := by
  decide

theorem test_ldF : next (exec (.ldF 2) (entryWith [(2, 0x1A)] 0)) (fun t => t.i == 0x082) = true := by decide

theorem test_ldB : next (exec (.ldB 10) (entryWith [(10, 156)] 0x300)) (fun t =>
    t.readByte 0x300 == 1 && t.readByte 0x301 == 5 && t.readByte 0x302 == 6 && t.i == 0x300) = true := by decide

theorem test_ldB_bounds : next (exec (.ldB 10) (entryWith [(10, 156)] 0xFFE)) (fun t =>
    faulted t .memBounds 0x200 0x1000 && t.mem == []) = true := by decide

theorem test_ldMemVx : next (exec (.ldMemVx 2) (entryWith [(0, 1), (1, 2), (2, 3), (3, 9)] 0x300)) (fun t =>
    t.mem == [(0x300, 1), (0x301, 2), (0x302, 3)] && t.i == 0x300) = true := by decide

theorem test_ldMemVx_font : next (exec (.ldMemVx 1) (entryWith [(0, 1), (1, 2)] 0x04F)) (fun t =>
    faulted t .fontWrite 0x200 0x04F && t.mem == []) = true := by decide

theorem test_ldVxMem : next (exec (.ldVxMem 2) ((entryWith [(3, 9)] 0x300).storeBytes 0x300 [1, 5, 6, 7])) (fun t =>
    t.reg 0 == 1 && t.reg 1 == 5 && t.reg 2 == 6 && t.reg 3 == 9 && t.i == 0x300) = true := by decide

theorem test_ldVxMem_bounds : next (exec (.ldVxMem 15) (entryWith [(1, 4)] 0xFF1)) (fun t =>
    faulted t .memBounds 0x200 0x1000 && t.reg 1 == 4) = true := by decide

/-! Display (T4, T5, T19). -/

theorem test_cls : next (exec .cls { entryWith [(15, 1)] 0 with fb := togglePixel entry.fb 3 4 }) (fun t =>
    t.pixel 3 4 == false && t.reg 15 == 1) = true := by decide

theorem test_drw_partial_overlap :
    next (exec (.drw 0 1 1) ({ entry with i := 0x300, fb := togglePixel entry.fb 0 0 }.storeBytes 0x300 [0xC0])) (fun t =>
      t.pixel 0 0 == false && t.pixel 0 1 && t.pixel 0 2 == false && t.reg 15 == 1) = true := by decide

theorem test_drw_wraps :
    next (exec (.drw 0 15 1) ((entryWith [(0, 63), (15, 31)] 0x300).storeBytes 0x300 [0xC0])) (fun t =>
      t.pixel 31 63 && t.pixel 31 0 && t.pixel 0 0 == false && t.reg 15 == 0) = true := by decide

/-! Keys and timers (T8, T20, T21). -/

theorem test_skp : next (exec (.skp 1) ((entryWith [(1, 5)] 0).press 5)) (fun t => t.pc == 0x204 && t.keyFlag) = true := by decide

theorem test_skp_index : next (exec (.skp 1) (entryWith [(1, 16)] 0)) (fun t => faulted t .keyIndex 0x200 16) = true := by decide

theorem test_sknp : next (exec (.sknp 1) ((entryWith [(1, 5)] 0).press 1)) (fun t => t.pc == 0x204) = true := by decide

theorem test_sknp_index : next (exec (.sknp 1) (entryWith [(1, 0xFF)] 0)) (fun t => faulted t .keyIndex 0x200 255) = true := by
  decide

theorem test_ldVxDt : next (exec (.ldVxDt 3) { entry with dt := 0x2A }) (fun t => t.reg 3 == 0x2A && t.dt == 0x2A) = true := by decide

theorem test_ldVxK : next (exec (.ldVxK 2) (entry.press 3)) (fun t =>
    t.status == .waitKey 2 && !t.keyFlag && t.held 3 && t.reg 2 == 0) = true := by decide

/-- T21 (a), the completion: the lowest held key, not the one just pressed. -/
theorem test_completeWait :
    next (step { (State.reset.press 9).press 3 with status := .waitKey 2 }) (fun t =>
      t.reg 2 == 3 && !t.keyFlag && t.status == .running && t.pc == 0x200) = true := by decide

theorem test_ldDtVx : next (exec (.ldDtVx 0) (entryWith [(0, 3)] 0)) (fun t => t.dt == 3 && t.st == 0) = true := by decide

theorem test_ldStVx : next (exec (.ldStVx 4) (entryWith [(4, 0x10)] 0)) (fun t => t.st == 0x10 && t.dt == 0) = true := by decide

/-! The step, the other agents, and reset (T12, T20, T22). -/

/-- T12: an instruction placed where the machine fetches runs in the very next step. -/
theorem test_step_runs_the_fetched_word :
    next (step (State.reset.withFetchWord 16 0x6A9C)) (fun t => t.reg 10 == 0x9C && t.pc == 0x202 && t.boot == .started) = true := by
  decide

/-- T12: an odd address is fetched from like any other. -/
theorem test_step_odd_pc :
    next (step ({ State.reset with pc := 0x201 }.storeBytes 0x201 [0x61, 0x07])) (fun t => t.reg 1 == 7 && t.pc == 0x203) = true := by
  decide

theorem test_step_halts : next (step { State.reset with pc := 0x1000 }) (fun t =>
    t.status == .halted && t.pc == 0x1000 && t.fault.cause == .none) = true := by decide

theorem test_step_fetchBounds : next (step { State.reset with pc := 0xFFF }) (fun t =>
    t.status == .faulted && t.fault == ⟨.fetchBounds, 0xFFF, 0xFFF⟩ && t.pc == 0xFFF) = true := by decide

theorem test_step_memSize_4095 :
    next (step { State.reset with pc := 0xFFE, cfg := { Config.spec with memSize := 4095 } }) (fun t =>
      t.fault == ⟨.fetchBounds, 0xFFE, 0xFFE⟩) = true := by decide

theorem test_tick : next (step { State.reset with dt := 3, st := 0, schedule := [.tick] }) (fun t =>
    t.dt == 2 && t.st == 0 && t.schedule == []) = true := by decide

theorem test_release : next (step { State.reset.press 7 with schedule := [.release 7] }) (fun t =>
    !t.held 7 && t.keyFlag) = true := by decide

/-- T22: a one-byte image. -/
theorem test_load : next (step { State.reset with schedule := [.load [0x6A]] }) (fun t =>
    t.mem == [(0x200, 0x6A)] && t.pc == 0x200 && t.boot == .loaded) = true := by decide

/-- T22: an image is cut at the end of memory. -/
theorem test_load_cut : (State.reset.copyImage 0xFFE [1, 2, 3]).mem = [(0xFFE, 1), (0xFFF, 2)] := by decide

theorem test_reset_leaves_faulted : next (step { State.reset with status := .faulted, pc := 7, schedule := [.reset] }) (fun t =>
    t.status == .running && t.pc == 0x200 && t.schedule == []) = true := by decide

/-- R140. -/
theorem test_fault_codes : FaultCause.none.code = 0 ∧ FaultCause.fetchBounds.code = 1 ∧ FaultCause.memBounds.code = 2 ∧
    FaultCause.fontWrite.code = 3 ∧ FaultCause.stackOverflow.code = 4 ∧ FaultCause.stackUnderflow.code = 5 ∧
    FaultCause.keyIndex.code = 6 := by decide

/-- T7: glyph A. -/
theorem test_font : (State.reset.readBytes 50 5) = [0xF0, 0x90, 0xF0, 0x90, 0x90] := by decide

/-! Witnesses: for each obligation with hypotheses, a state and operands that meet them, at the bounds of each clause. -/

theorem witness_DecoderFollowsTheOpcodeTable :
    (opcodeTable.any fun row => row.isMatch 0xF265) = true ∧ isKnownWord 0x5121 = false ∧ IsA 0x2FFF 0x2000 0xFFF ∧
    IsRI 0xCF42 0xC000 15 0x42 ∧ IsRR 0x8F2E 0x800E 15 2 ∧ IsRRN 0xDF0F 0xD000 15 0 15 ∧ IsR 0xFF65 0xF065 15 := by
  unfold IsA IsRI IsRR IsRRN IsR; decide

theorem witness_DecodeInvertsEncode : (Instr.drw 15 15 15).wellFormed = true ∧ (Instr.unknown 0xFFFF).wellFormed = true := by decide

/-- A whole word at `pc`, at the last address where there is one. -/
def lastWord : State := { State.reset with pc := 0xFFE }.storeBytes 0xFFE [0x6A, 0x9C]

theorem witness_StepRunsTheDecodedInstruction :
    lastWord.nextMove = .cpu ∧ lastWord.status = .running ∧ lastWord.pc.toNat + 1 < lastWord.cfg.memSize ∧
    decode lastWord.cfg.fetchOrder [lastWord.readByte lastWord.pc.toNat, lastWord.readByte (lastWord.pc.toNat + 1)] =
      .ok (.ldImm 10 0x9C, []) ∧ lastWord.IsAfterWord 0x1000 := by
  unfold State.IsAfterWord; decide

theorem witness_StepTakesTheScheduledMove :
    { State.reset with schedule := [.tick, .cpu] }.schedule = Move.tick :: [.cpu] ∧ State.reset.schedule = [] := by decide

theorem witness_CpuHaltsWhenPcLeavesMemory :
    { State.reset with pc := 0x1000 }.nextMove = .cpu ∧ { State.reset with pc := 0x1000 }.status = .running ∧
    { State.reset with pc := 0x1000 }.cfg.memSize ≤ { State.reset with pc := 0x1000 }.pc.toNat := by decide

theorem witness_FetchAtTheLastCellFaults :
    { State.reset with pc := 0xFFF }.nextMove = .cpu ∧ { State.reset with pc := 0xFFF }.status = .running ∧
    { State.reset with pc := 0xFFF }.pc.toNat + 1 = { State.reset with pc := 0xFFF }.cfg.memSize := by decide

theorem witness_CpuWithNoEnabledStep :
    ({ State.reset with status := .halted }.nextMove = .cpu ∧ { State.reset with status := .halted }.status = .halted) ∧
    ({ State.reset with status := .faulted }.nextMove = .cpu ∧ { State.reset with status := .faulted }.status = .faulted) ∧
    ({ State.reset with status := .waitKey 2 }.nextMove = .cpu ∧
      { State.reset with status := .waitKey 2 }.status = .waitKey 2 ∧
      { State.reset with status := .waitKey 2 }.keyFlag = false) := by decide

/-- Waiting for a key, with keys 4 and 15 held. -/
def waiting : State := { (State.reset.press 4).press 15 with status := .waitKey 2 }

/-- Waiting for a key that has been released again. -/
def waitingReleased : State := { (State.reset.press 7).release 7 with status := .waitKey 15 }

theorem witness_WaitCompletesWithTheLowestHeldKey :
    (waiting.nextMove = .cpu ∧ waiting.status = .waitKey 2 ∧ waiting.keyFlag = true ∧ waiting.held 4 = true ∧
      ∀ j : Key, j < 4 → waiting.held j = false) ∧
    (waitingReleased.nextMove = .cpu ∧ waitingReleased.status = .waitKey 15 ∧ waitingReleased.keyFlag = true ∧
      ∀ k : Key, waitingReleased.held k = false) := by decide

theorem witness_StepStopsOnlyWhereNoStepIsEnabled :
    { State.reset with schedule := [.load [1]], boot := .loaded }.nextMove = .load [1] ∧
    { State.reset with schedule := [.load [1]], boot := .loaded }.boot ≠ .fresh := by decide

theorem witness_JumpSetsPc : IsA 0x1FFF 0x1000 0xFFF := by unfold IsA; decide

theorem witness_SkipsOnImmediate : IsRI 0x3F42 0x3000 15 0x42 ∧ IsRI 0x40FF 0x4000 0 0xFF := by unfold IsRI; decide

theorem witness_SkipsOnRegisters :
    IsRR 0x5120 0x5000 1 2 ∧ IsRR 0x9FF0 0x9000 15 15 ∧ (0x5121 : Word) &&& 0xF000 = 0x5000 ∧
    (0x5121 : Word).extractLsb' 0 4 ≠ 0 ∧ (0x9ABF : Word) &&& 0xF000 = 0x9000 ∧ (0x9ABF : Word).extractLsb' 0 4 ≠ 0 := by
  unfold IsRR; decide

theorem witness_LoadsCopyIntoARegister : IsRI 0x6A9C 0x6000 10 0x9C ∧ IsRR 0x81F0 0x8000 1 15 := by
  unfold IsRI IsRR; decide

theorem witness_LoadIndexTakesTheAddress : IsA 0xAFFF 0xA000 0xFFF := by unfold IsA; decide

theorem witness_UnknownWordIsANoOp : entry.IsInstrAddr 0x200 ∧ { entry with pc := 2 }.IsInstrAddr 0 := by
  unfold State.IsInstrAddr; decide

theorem witness_CallPushesTheReturnAddress : { State.reset with sp := 15 }.sp.val < 16 ∧ State.reset.sp.val < 16 := by decide

theorem witness_ReturnPopsTheStack : 0 < { State.reset with sp := 1 }.sp.val ∧ 0 < { State.reset with sp := 16 }.sp.val := by decide

theorem witness_StackLimitsFault : { State.reset with sp := 16 }.sp.val = 16 ∧ State.reset.sp.val = 0 := by decide

theorem witness_CallThenReturnComesBack : { State.reset with sp := 15 }.sp.val < 16 := by decide

/-- The configurations that the policies name. -/
def withPolicy (p : VfOperandPolicy) : State := { State.reset with cfg := { Config.spec with vfOperand := p } }

theorem witness_IndexedJumpAddsV0 : State.reset.cfg.pcLen = .sixteen := rfl

theorem witness_AddSetsTheCarry :
    State.reset.cfg.vfOperand ≠ .flagLast ∧ (withPolicy .flagLast).cfg.vfOperand = .flagLast ∧ (14 : Reg) ≠ vF := by decide

theorem witness_SubtractionsSetTheStrictFlag :
    State.reset.cfg.vfOperand = .sampleFlagResult ∧ ((1 : Reg) ≠ vF ∧ (14 : Reg) ≠ vF) := by decide

theorem witness_ShiftsSetTheBitShiftedOut : State.reset.cfg.vfOperand = .sampleFlagResult ∧ (14 : Reg) ≠ vF := by decide

theorem witness_VfOperandAlternatives :
    (withPolicy .flagLast).cfg.vfOperand = .flagLast ∧ (withPolicy .sequentialText).cfg.vfOperand = .sequentialText := by decide

/-- The re-reading function that the `sequential_text` clause speaks of. -/
theorem witness_VfOperandAlternatives_reread : ∃ reread : Bool → Reg → Byte,
    ∀ flag r, reread flag r = if r = vF then (if flag = true then 1 else 0) else (withPolicy .sequentialText).reg r :=
  ⟨_, fun _ _ => rfl⟩

/-- The reset state with an `I`. -/
def withIndex (i : Addr) : State := { State.reset with i := i }

/-- The same, where stores to the font land. -/
def withOpenFont (i : Addr) : State := { withIndex i with cfg := { Config.spec with fontWrite := .allow } }

theorem witness_DecimalDigitsAreStored :
    ((withIndex 0xFFD).i.toNat + 2 < (withIndex 0xFFD).cfg.memSize ∧ 80 ≤ (withIndex 0xFFD).i.toNat) ∧
    80 ≤ (withIndex 80).i.toNat ∧ (withOpenFont 0).cfg.fontWrite = .allow := by decide

theorem witness_RegistersAreStored :
    ((withIndex 0xFF0).i.toNat + (15 : Reg).val < (withIndex 0xFF0).cfg.memSize ∧ 80 ≤ (withIndex 0xFF0).i.toNat) ∧
    ((withOpenFont 0).i.toNat + (0 : Reg).val < (withOpenFont 0).cfg.memSize ∧ (withOpenFont 0).cfg.fontWrite = .allow) := by decide

theorem witness_RegistersAreLoaded : (withIndex 0xFFF).i.toNat + (0 : Reg).val < (withIndex 0xFFF).cfg.memSize := by decide

theorem witness_StoresCheckBeforeWriting :
    (withIndex 0xFFE).cfg.memSize ≤ (withIndex 0xFFE).i.toNat + 2 ∧
    (withIndex 0xFFF).cfg.memSize ≤ (withIndex 0xFFF).i.toNat + (1 : Reg).val ∧
    ((withIndex 79).i.toNat + 2 < (withIndex 79).cfg.memSize ∧ (withIndex 79).i.toNat < 80 ∧
      (withIndex 79).cfg.fontWrite = .fault) ∧
    (withIndex 79).i.toNat + (15 : Reg).val < (withIndex 79).cfg.memSize := by decide

theorem witness_ReadsCheckBeforeReading :
    (withIndex 0xFFF).cfg.memSize ≤ (withIndex 0xFFF).i.toNat + (1 : Reg).val ∧
    0 < (2 : Nibble).toNat ∧ (withIndex 0xFFF).cfg.memSize ≤ (withIndex 0xFFF).i.toNat + ((2 : Nibble).toNat - 1) := by decide

/-- `I` at `pc`. -/
def storingAhead : State := { State.reset with i := 0x202, pc := 0x202 }

theorem witness_StoreIsSeenByTheNextFetch :
    storingAhead.status = .running ∧ storingAhead.nextMove = .cpu ∧ storingAhead.i.toNat = storingAhead.pc.toNat ∧
    1 ≤ (1 : Reg).val ∧ storingAhead.pc.toNat + (1 : Reg).val < storingAhead.cfg.memSize ∧ 80 ≤ storingAhead.pc.toNat ∧
    storingAhead.IsAfterWord 0x204 := by
  unfold State.IsAfterWord; decide

theorem witness_DrawXorsTheSprite :
    (0 : Nibble).toNat = 0 ∧ (withIndex 0xFFF).i.toNat + ((1 : Nibble).toNat - 1) < (withIndex 0xFFF).cfg.memSize := by decide

theorem witness_DrawTwiceRestores : (List.replicate 15 (0xFF : Byte)).length ≤ 15 := by decide

theorem witness_DrawCoordinatesWrap :
    (200 : Byte).toNat % 64 = (8 : Byte).toNat % 64 ∧ (100 : Byte).toNat % 32 = (4 : Byte).toNat % 32 := by decide

theorem witness_KeySkipsTestTheLevel : ((State.reset.setReg 1 15).reg 1).toNat < 16 := by decide

/-- An index of 16 under a policy. -/
def withKeyPolicy (p : KeyIndexPolicy) : State := { State.reset.setReg 1 16 with cfg := { Config.spec with keyIndex := p } }

theorem witness_KeyIndexAboveFifteen :
    (15 < ((withKeyPolicy .fault).reg 1).toNat ∧ (withKeyPolicy .fault).cfg.keyIndex = .fault) ∧
    ((withKeyPolicy .mask4).cfg.keyIndex = .mask4 ∧ (0 : Key).val = ((withKeyPolicy .mask4).reg 1).toNat % 16) ∧
    (15 < ((withKeyPolicy .notPressed).reg 1).toNat ∧ (withKeyPolicy .notPressed).cfg.keyIndex = .notPressed) := by decide

/-- The reset state with a move scheduled. -/
def scheduled (m : Move) : State := { State.reset with schedule := [m] }

theorem witness_TickCountsBothTimersDown : (scheduled .tick).schedule = .tick :: [] := by decide

theorem witness_PressAndReleaseSetTheLatch :
    (scheduled (.press 15)).schedule = .press 15 :: [] ∧ (scheduled (.release 15)).schedule = .release 15 :: [] := by decide

theorem witness_PressAndReleaseSetTheLatch_hold :
    { scheduled (.release 3) with status := .waitKey 2 }.keyFlag = false ∧
    (∀ j, { scheduled (.release 3) with status := .waitKey 2 }.nextMove ≠ .press j) ∧
    { scheduled (.release 3) with status := .waitKey 2 }.nextMove ≠ .reset ∧
    ∃ t, step { scheduled (.release 3) with status := .waitKey 2 } = .next t :=
  ⟨rfl, by decide, by decide, _, rfl⟩

theorem witness_SnapshotCopiesTheGrid : (scheduled .snapshot).schedule = .snapshot :: [] := by decide

theorem witness_LoadCopiesTheImage :
    (scheduled (.load [0x12, 0x00])).schedule = .load [0x12, 0x00] :: [] ∧ (scheduled (.load [0x12, 0x00])).boot = .fresh ∧
    0x200 + 1 < (scheduled (.load [0x12, 0x00])).cfg.memSize := by decide

theorem witness_ResetRestoresTheMachine : (scheduled .reset).schedule = .reset :: [] := by decide

/-- A state other than the reset one that has the invariant, with a step to take. -/
theorem witness_StepKeepsTheInvariant : (scheduled .tick).Inv ∧ ∃ t, step (scheduled .tick) = .next t := by
  refine ⟨⟨⟨List.Pairwise.nil, fun _ h => nomatch h⟩, .inl rfl, by decide, by decide, by decide, by decide, by decide⟩, _, rfl⟩

theorem witness_StepKeepsTheFont :
    (scheduled .tick).cfg.fontWrite = .fault ∧ (∀ (a : Nat) (h : a < 80), (scheduled .tick).readByte a = (scheduled .tick).cfg.font[a]) ∧
    ∃ t, step (scheduled .tick) = .next t := by
  refine ⟨rfl, ?_, _, rfl⟩
  intro a h
  have e : (scheduled .tick).readByte a = Memory.unlisted Config.spec a := rfl
  rw [e, Memory.unlisted, dif_pos h]
  rfl

theorem witness_StepKeepsTheConfiguration : ∃ t, step (scheduled (.press 3)) = .next t := ⟨_, rfl⟩

theorem witness_InstructionsKeepTheirFrame :
    (∃ t, exec (.call 0x300) State.reset = .next t) ∧ ∃ t, exec .ret State.reset = .next t := ⟨⟨_, rfl⟩, _, rfl⟩

theorem witness_OnlyResetLeavesTheEnd :
    { scheduled .tick with status := .halted }.status = .halted ∧ { scheduled .tick with status := .faulted }.status = .faulted ∧
    { scheduled .tick with status := .faulted }.nextMove ≠ .reset ∧
    ∃ t, step { scheduled .tick with status := .faulted } = .next t := ⟨rfl, rfl, by decide, _, rfl⟩

theorem witness_AgentsKeepTheirOwnership :
    ((∀ k, State.reset.nextMove ≠ .press k) ∧ (∀ k, State.reset.nextMove ≠ .release k) ∧ State.reset.nextMove ≠ .reset) ∧
    ((∀ k, { State.reset.press 3 with schedule := [.snapshot] }.nextMove ≠ .press k) ∧
      { State.reset.press 3 with schedule := [.snapshot] }.nextMove ≠ .cpu ∧
      { State.reset.press 3 with schedule := [.snapshot] }.nextMove ≠ .reset ∧
      { State.reset.press 3 with schedule := [.snapshot] }.keyFlag = true ∧
      ∃ t, step { State.reset.press 3 with schedule := [.snapshot] } = .next t ∧ t.keyFlag = true) ∧
    ((∀ image, (scheduled (.press 15)).nextMove ≠ .load image) ∧ (scheduled (.press 15)).nextMove ≠ .tick ∧
      (∀ k, k ≠ 15 → (scheduled (.press 15)).nextMove ≠ .press k)) := by
  refine ⟨⟨by decide, by decide, by decide⟩, ⟨by decide, by decide, by decide, rfl, _, rfl, rfl⟩, ?_, by decide, by decide⟩
  intro image h
  cases h

theorem witness_SoundTimerIsNeverRead :
    (∃ f, step { State.reset with status := .halted } = .fault f) ∧ ∃ t, step (scheduled .tick) = .next t :=
  ⟨⟨_, rfl⟩, _, rfl⟩

theorem witness_OutputsAreNeverRead :
    (∃ f, step { State.reset with status := .faulted } = .fault f) ∧ ∃ t, step (scheduled .snapshot) = .next t :=
  ⟨⟨_, rfl⟩, _, rfl⟩

end Sys2Proof.Tests
end

section
/-! What every step keeps: the machine's invariant (R5, R14, R15, R20, R80, R142) and its configuration (R5, R10). One
inversion lemma, `exec_raisesOrContinues`, says what any instruction does to the parts that the two speak of; a rule for each
agent's step follows. -/

namespace Sys2Proof.Machine

/-! Updates that touch registers or outputs alone. -/

/-- A sampled flag and result change registers alone, under every policy. -/
theorem State.writeSampled_eq (s : State) (x : Reg) (flag : Bool) (result : Byte) :
    s.writeSampled x flag result = { s with v := (s.writeSampled x flag result).v } := by
  unfold State.writeSampled
  cases s.cfg.vfOperand <;> rfl

/-- A flag and a result change registers alone, under every policy. -/
theorem State.flagAndResult_eq (s : State) (x y : Reg) (f : Byte → Byte → Bool) (r : Byte → Byte → Byte) :
    s.flagAndResult x y f r = { s with v := (s.flagAndResult x y f r).v } := by
  by_cases hp : s.cfg.vfOperand = .sequentialText
  · rw [State.flagAndResult_sequential s x y f r hp]; rfl
  · rw [State.flagAndResult_sampled s x y f r hp]; exact s.writeSampled_eq ..

/-- The optional diagnostic changes outputs alone (R153). -/
theorem State.signalUnknown_eq (s : State) (w : Word) :
    s.signalUnknown w = { s with outputs := (s.signalUnknown w).outputs } := by
  unfold State.signalUnknown
  split <;> rfl

/-! What an instruction does to control and configuration. -/

/-- The addresses an instruction may leave in `pc`, where `s.pc` is the address after the instruction (R68, R80 to R88). -/
inductive State.PcTarget (s : State) : Word → Prop
  | kept : s.PcTarget s.pc
  | skipped : s.PcTarget s.afterWord
  | returned (j : Fin 16) : s.PcTarget (s.slot j)
  | absolute (nnn : Addr) : s.PcTarget (absoluteTarget nnn)
  | indexed (nnn : Addr) (v0 : Byte) : s.PcTarget (wrapPc s.cfg (indexedTarget nnn v0))

/-- What an instruction that raises no fault does, as far as the invariant and the configuration see it (memory apart, which
`exec_memory` describes). -/
structure ContinuesTo (s t : State) : Prop where
  cfg : t.cfg = s.cfg
  fault : t.fault = s.fault
  status : t.status = s.status ∨ ∃ x, t.status = .waitKey x
  pc : s.PcTarget t.pc
  slot : ∀ j, t.slot j = s.slot j ∨ t.slot j = s.pc

theorem ContinuesTo.of_same {s t : State} (hcfg : t.cfg = s.cfg) (hfault : t.fault = s.fault)
    (hstatus : t.status = s.status) (hpc : t.pc = s.pc) (hslot : ∀ j, t.slot j = s.slot j) : ContinuesTo s t :=
  ⟨hcfg, hfault, .inl hstatus, hpc ▸ .kept, fun j => .inl (hslot j)⟩

theorem ContinuesTo.jump {s : State} {p : Word} (h : s.PcTarget p) : ContinuesTo s (s.jump p) :=
  ⟨rfl, rfl, .inl rfl, h, fun _ => .inl rfl⟩

theorem ContinuesTo.skipIf (s : State) (b : Bool) : ContinuesTo s (s.skipIf b) := by
  cases b
  · exact .of_same rfl rfl rfl rfl fun _ => rfl
  · exact .jump .skipped

theorem ContinuesTo.storeBytes (s : State) (base : Nat) (bytes : List Byte) : ContinuesTo s (s.storeBytes base bytes) :=
  .of_same (s.storeBytes_cfg ..) (s.storeBytes_fault ..) (s.storeBytes_status ..) (s.storeBytes_pc ..)
    (s.storeBytes_slot base bytes)

theorem ContinuesTo.drawn (s : State) (x y : Reg) (n : Nibble) : ContinuesTo s (s.drawn x y n) :=
  .of_same rfl rfl rfl rfl fun _ => rfl

theorem ContinuesTo.loadBlock (s : State) (x : Reg) (base : Nat) : ContinuesTo s (s.loadBlock x base) :=
  .of_same (s.loadBlock_cfg x base) (s.loadBlock_fault x base) (s.loadBlock_status x base) (s.loadBlock_pc x base)
    (s.loadBlock_slot x base)

/-- An instruction enters a fault of R140, or continues. -/
def RaisesOrContinues (s t : State) : Prop :=
  (∃ cause info, t = s.raise cause info ∧ cause ≠ .none) ∨ ContinuesTo s t

theorem afterReads_raisesOrContinues {s done t : State} {base n : Nat} (hdone : ContinuesTo s done)
    (h : s.afterReads (effectiveAddrs base n) done = .next t) : RaisesOrContinues s t := by
  obtain ⟨info, e⟩ | e := s.afterReads_cases base n done <;> cases e.symm.trans h
  · exact .inl ⟨_, _, rfl, nofun⟩
  · exact .inr hdone

theorem afterWrites_raisesOrContinues {s done t : State} {base n : Nat} (hn : 0 < n) (hdone : ContinuesTo s done)
    (h : s.afterWrites (effectiveAddrs base n) done = .next t) : RaisesOrContinues s t := by
  obtain ⟨cause, info, hcause, e⟩ | ⟨-, -, e⟩ := s.afterWrites_cases base n hn done <;> cases e.symm.trans h
  · exact .inl ⟨_, _, rfl, hcause⟩
  · exact .inr hdone

/-- A return continues at the top slot, or the stack is empty (R80). -/
theorem execRet_raisesOrContinues {s t : State} (h : execRet s = .next t) : RaisesOrContinues s t := by
  unfold execRet at h
  obtain hsp | hsp := Nat.eq_zero_or_pos s.sp.val
  · rw [s.pop_empty hsp] at h; cases h
    exact .inl ⟨_, _, rfl, nofun⟩
  · rw [s.pop_eq hsp] at h; cases h
    exact .inr ⟨rfl, rfl, .inl rfl, .returned _, fun _ => .inl rfl⟩

/-- A call pushes `pc` into one slot, or the stack is full (R82). -/
theorem execCall_raisesOrContinues {nnn : Addr} {s t : State} (h : execCall nnn s = .next t) :
    RaisesOrContinues s t := by
  unfold execCall at h
  by_cases hsp : s.sp.val < 16
  · rw [s.push_eq hsp] at h; cases h
    refine .inr ⟨rfl, rfl, .inl rfl, .absolute nnn, fun j => ?_⟩
    by_cases hj : s.sp.val = j.val
    · right; simp [State.slot, Vector.get_eq_getElem, hj]
    · left; simp [State.slot, Vector.get_eq_getElem, Vector.getElem_set_ne, hj]
  · rw [s.push_full (by omega)] at h; cases h
    exact .inl ⟨_, _, rfl, nofun⟩

/-- All that an instruction can do to the parts of a state that the invariant and the configuration are about. -/
theorem exec_raisesOrContinues {i : Instr} {s t : State} (h : exec i s = .next t) : RaisesOrContinues s t := by
  cases i with
  | ret => exact execRet_raisesOrContinues h
  | call nnn => exact execCall_raisesOrContinues h
  | jp nnn => cases h; exact .inr (.jump (.absolute nnn))
  | jpV0 nnn => cases h; exact .inr (.jump (.indexed nnn _))
  | seImm | sneImm | seReg | sneReg => cases h; exact .inr (.skipIf s _)
  | skp x | sknp x =>
    simp only [exec, execSkp, execSknp] at h
    split at h <;> cases h
    · exact .inr (.skipIf s _)
    · exact .inl ⟨_, _, rfl, nofun⟩
  | ldVxK x => cases h; exact .inr ⟨rfl, rfl, .inr ⟨x, rfl⟩, .kept, fun _ => .inl rfl⟩
  | drw x y n => exact afterReads_raisesOrContinues (.drawn s x y n) h
  | ldVxMem x => exact afterReads_raisesOrContinues (.loadBlock s x s.i.toNat) h
  | ldB x =>
    exact afterWrites_raisesOrContinues (n := 3) (by decide) (.storeBytes s s.i.toNat (decimalDigits (s.reg x))) h
  | ldMemVx x => exact afterWrites_raisesOrContinues (Nat.succ_pos x.val) (.storeBytes s s.i.toNat (s.regBlock x)) h
  | addReg => cases h; rw [State.writeSampled_eq]; exact .inr (.of_same rfl rfl rfl rfl fun _ => rfl)
  | subReg | shr | subnReg | shl =>
    cases h; rw [State.flagAndResult_eq]; exact .inr (.of_same rfl rfl rfl rfl fun _ => rfl)
  | unknown w => cases h; rw [State.signalUnknown_eq]; exact .inr (.of_same rfl rfl rfl rfl fun _ => rfl)
  | cls | ldImm | addImm | ldReg | orReg | andReg | xorReg | ldI | rnd | ldVxDt | ldDtVx | ldStVx | addI | ldF =>
    cases h; exact .inr (.of_same rfl rfl rfl rfl fun _ => rfl)

/-! The configuration. -/

theorem exec_cfg {i : Instr} {s t : State} (h : exec i s = .next t) : t.cfg = s.cfg := by
  obtain ⟨_, _, rfl, -⟩ | hc := exec_raisesOrContinues h
  · rfl
  · exact hc.cfg

/-- The completion of a wait as an update of the state: nothing but a register, the count of draws, `KEYFLAG` and `STATUS`
(R134). -/
theorem State.completeWait_eq (s : State) (x : Reg) :
    ∃ n b, s.completeWait x = { ({ s with draws := n }.setReg x b) with keyFlag := false, status := .running } := by
  obtain ⟨n, hn⟩ := s.keyDelivered_state
  exact ⟨n, s.keyDelivered.1, by rw [State.completeWait, hn]⟩

/-- A `Load` that is taken copies the image and ends the boot phase (R172, R173). -/
theorem State.load_cases {s t : State} {image : List Byte} (h : s.load image = .next t) :
    t = { s.copyImage Config.progBase image with boot := .loaded } := by
  unfold State.load at h
  split at h <;> cases h
  rfl

theorem cpuStep_cfg {s t : State} (h : cpuStep s = .next t) : t.cfg = s.cfg := by
  obtain ⟨-, h⟩ | ⟨x, -, ⟨-, rfl⟩ | ⟨-, rfl⟩⟩ := cpuStep_cases s t h
  · obtain ⟨-, rfl⟩ | ⟨-, rfl⟩ | ⟨-, h⟩ := runningStep_cases s.begun t h
    · rfl
    · rfl
    · exact exec_cfg (s := s.begun.advanced) h
  · rfl
  · obtain ⟨n, b, e⟩ := s.begun.completeWait_eq x
    rw [e]; rfl

theorem moveStep_cfg {m : Move} {s t : State} (h : moveStep m s = .next t) : t.cfg = s.cfg := by
  cases m with
  | cpu => exact cpuStep_cfg h
  | load image => rw [State.load_cases h]; exact s.copyImage_cfg ..
  | tick | snapshot | press | release | reset => cases h; rfl

/-- Settles O55: every agent's step keeps the configuration, the CPU's because every instruction does. -/
theorem stepKeepsTheConfiguration : Obligations.StepKeepsTheConfiguration :=
  fun s _ h => moveStep_cfg (s := s.unscheduled) h

/-! The invariant under the updates of a state. -/

/-- The invariant carries over to a state with the same memory, configuration, `pc` and stack, and a sound fault record. -/
theorem State.Inv.of_same {s t : State} (hi : s.Inv) (hmem : t.mem = s.mem) (hcfg : t.cfg = s.cfg) (hpc : t.pc = s.pc)
    (hslot : ∀ j, t.slot j = s.slot j) (hrec : t.status = .faulted ↔ t.fault.cause ≠ .none) : t.Inv where
  memory := by rw [hmem, hcfg]; exact hi.memory
  legal := by rw [hcfg]; exact hi.legal
  faultRecord := hrec
  pcBound := by rw [hpc]; exact hi.pcBound
  pcWidth := by rw [hpc, hcfg]; exact hi.pcWidth
  stackBound j := by rw [hslot, hcfg]; exact hi.stackBound j
  stackWidth j := by rw [hslot, hcfg]; exact hi.stackWidth j

theorem State.Inv.cause_eq_none {s : State} (hi : s.Inv) (h : s.status ≠ .faulted) : s.fault.cause = .none :=
  Classical.not_not.mp (mt hi.faultRecord.mpr h)

/-- A change of status alone, between two that are not `Faulted`, keeps the fault record sound. -/
theorem State.Inv.record_of_not_faulted {s t : State} (hi : s.Inv) (hs : s.status ≠ .faulted) (ht : t.status ≠ .faulted)
    (hfault : t.fault = s.fault) : t.status = .faulted ↔ t.fault.cause ≠ .none := by
  simp [ht, hfault, hi.cause_eq_none hs]

theorem State.Inv.unscheduled {s : State} (hi : s.Inv) : s.unscheduled.Inv :=
  hi.of_same rfl rfl rfl (fun _ => rfl) hi.faultRecord

theorem State.Inv.begun {s : State} (hi : s.Inv) : s.begun.Inv :=
  hi.of_same rfl rfl rfl (fun _ => rfl) hi.faultRecord

/-- Fault entry records a cause and keeps the rest (R141). -/
theorem State.Inv.raiseAt {s : State} (hi : s.Inv) (a : Word) {cause : FaultCause} (hc : cause ≠ .none) (info : Nat) :
    (s.raiseAt a cause info).Inv :=
  hi.of_same rfl rfl rfl (fun _ => rfl) (iff_of_true rfl hc)

theorem State.Inv.halt {s : State} (hi : s.Inv) (hs : s.status = .running) : s.halt.Inv :=
  hi.of_same rfl rfl rfl (fun _ => rfl) (hi.record_of_not_faulted (by simp [hs]) nofun rfl)

theorem State.Inv.completeWait {s : State} {x : Reg} (hi : s.Inv) (hs : s.status = .waitKey x) :
    (s.completeWait x).Inv := by
  obtain ⟨n, b, e⟩ := s.completeWait_eq x
  rw [e]
  exact hi.of_same rfl rfl rfl (fun _ => rfl) (hi.record_of_not_faulted (by simp [hs]) nofun rfl)

theorem State.Inv.copyImage {s : State} (hi : s.Inv) (base : Nat) (image : List Byte) : (s.copyImage base image).Inv := by
  have hmem := s.wf_copyImage base image hi.memory
  rw [State.copyImage_eq] at hmem ⊢
  exact { hi with memory := hmem }

/-- The capacity is at most 4096 (R45). -/
theorem State.Inv.memSize_le {s : State} (hi : s.Inv) : s.cfg.memSize ≤ 4096 := by
  obtain h | h := hi.legal <;> omega

/-- Either width of `pc` holds every 12-bit address (R5, D3). -/
theorem le_two_pow_pcWidth_bits (w : PcWidth) : 4096 ≤ 2 ^ w.bits := by
  cases w <;> decide

/-- A sum cut to `PCLEN` bits fits them. -/
theorem wrapPc_lt (c : Config) (w : Word) : (wrapPc c w).toNat < 2 ^ c.pcLen.bits := by
  rw [wrapPc_toNat]; exact Nat.mod_lt _ (Nat.two_pow_pos _)

theorem State.afterWord_le (s : State) : s.afterWord.toNat ≤ s.pc.toNat + 2 := by
  rw [State.afterWord_toNat]; exact Nat.mod_le ..

/-- The advance past a whole word keeps the invariant: `pc` is then at most the capacity (R68). -/
theorem State.Inv.advanced {s : State} (hi : s.Inv) (hw : s.pc.toNat + 1 < s.cfg.memSize) :
    s.advanced.Inv ∧ s.advanced.pc.toNat ≤ s.cfg.memSize := by
  have hle : s.advanced.pc.toNat ≤ s.pc.toNat + 2 := s.afterWord_le
  have hmax := hi.memSize_le
  exact ⟨{ hi with pcBound := by omega, pcWidth := wrapPc_lt _ _ }, by omega⟩

theorem absoluteTarget_lt (nnn : Addr) : (absoluteTarget nnn).toNat < 4096 := by
  unfold absoluteTarget; bv_omega

theorem indexedTarget_le (nnn : Addr) (v0 : Byte) : (indexedTarget nnn v0).toNat ≤ 4350 := by
  unfold indexedTarget; bv_omega

/-! The invariant under an instruction, and under a step. -/

/-- Every address an instruction leaves in `pc` is within R14's bound and within `PCLEN` bits. The largest is that of `Bnnn`,
4095 + 255. -/
theorem State.PcTarget.bounds {s : State} {p : Word} (hp : s.PcTarget p) (hi : s.Inv) (hpc : s.pc.toNat ≤ s.cfg.memSize) :
    p.toNat ≤ 4350 ∧ p.toNat < 2 ^ s.cfg.pcLen.bits := by
  have hmax := hi.memSize_le
  cases hp with
  | kept => exact ⟨hi.pcBound, hi.pcWidth⟩
  | skipped => exact ⟨by have := s.afterWord_le; omega, wrapPc_lt _ _⟩
  | returned j => exact ⟨by have := hi.stackBound j; omega, hi.stackWidth j⟩
  | absolute nnn =>
    have hlt := absoluteTarget_lt nnn
    exact ⟨by omega, hlt.trans_le (le_two_pow_pcWidth_bits _)⟩
  | indexed nnn v0 =>
    refine ⟨?_, wrapPc_lt _ _⟩
    rw [wrapPc_toNat]
    exact (Nat.mod_le ..).trans (indexedTarget_le nnn v0)

/-- Every instruction keeps memory canonical: a store is checked before it is made (R38). -/
theorem exec_wf {i : Instr} {s t : State} (h : exec i s = .next t) (hwf : s.mem.wf s.cfg) : t.mem.wf s.cfg := by
  obtain e | ⟨base, bytes, e, hfit, -⟩ := exec_memory i s t h
  · rwa [e]
  · rw [e]; exact s.wf_storeBytes base bytes (.inl hfit) hwf

/-- Every instruction keeps the invariant, run where the cycle runs it: in `Running`, with `pc` past a whole word of memory. -/
theorem exec_inv {i : Instr} {s t : State} (hi : s.Inv) (hrun : s.status = .running)
    (hpc : s.pc.toNat ≤ s.cfg.memSize) (h : exec i s = .next t) : t.Inv := by
  obtain ⟨cause, info, rfl, hcause⟩ | hc := exec_raisesOrContinues h
  · exact hi.raiseAt _ hcause info
  · have htarget := hc.pc.bounds hi hpc
    have hstatus : t.status ≠ .faulted := by
      obtain e | ⟨x, e⟩ := hc.status <;> simp [e, hrun]
    constructor
    case memory => rw [hc.cfg]; exact exec_wf h hi.memory
    case legal => rw [hc.cfg]; exact hi.legal
    case faultRecord => exact hi.record_of_not_faulted (by simp [hrun]) hstatus hc.fault
    case pcBound => exact htarget.1
    case pcWidth => rw [hc.cfg]; exact htarget.2
    case stackBound =>
      intro j
      rw [hc.cfg]
      obtain e | e := hc.slot j <;> rw [e]
      · exact hi.stackBound j
      · exact hpc
    case stackWidth =>
      intro j
      rw [hc.cfg]
      obtain e | e := hc.slot j <;> rw [e]
      · exact hi.stackWidth j
      · exact hi.pcWidth

theorem runningStep_inv {s t : State} (hi : s.Inv) (hrun : s.status = .running) (h : runningStep s = .next t) : t.Inv := by
  obtain ⟨-, rfl⟩ | ⟨-, rfl⟩ | ⟨hw, h⟩ := runningStep_cases s t h
  · exact hi.halt hrun
  · exact hi.raiseAt s.pc (cause := .fetchBounds) nofun _
  · obtain ⟨hadv, hpc⟩ := hi.advanced hw
    exact exec_inv hadv hrun hpc h

theorem cpuStep_inv {s t : State} (hi : s.Inv) (h : cpuStep s = .next t) : t.Inv := by
  obtain ⟨hrun, h⟩ | ⟨x, hwait, ⟨-, rfl⟩ | ⟨-, rfl⟩⟩ := cpuStep_cases s t h
  · exact runningStep_inv hi.begun hrun h
  · exact hi
  · exact hi.begun.completeWait hwait

/-- `Reset` establishes the invariant in a machine of a legal capacity, whatever its state was (R22, R170). -/
theorem State.Inv.afterReset {s : State} (hlegal : s.cfg.legal) : s.afterReset.Inv := by
  have hslot : ∀ j, s.afterReset.slot j = 0 := fun j => by
    simp [State.slot, State.afterReset, State.reset, Vector.get_eq_getElem]
  have hbits := le_two_pow_pcWidth_bits s.cfg.pcLen
  exact {
    memory := Memory.wf_nil _
    legal := hlegal
    faultRecord := iff_of_false nofun (absurd rfl)
    pcBound := show (0x200 : Word).toNat ≤ 4350 by decide
    pcWidth := (show (0x200 : Word).toNat < 4096 by decide).trans_le hbits
    stackBound := fun j => by simp [hslot]
    stackWidth := fun j => by rw [hslot]; exact Nat.two_pow_pos _ }

theorem moveStep_inv {m : Move} {s t : State} (hi : s.Inv) (h : moveStep m s = .next t) : t.Inv := by
  cases m with
  | cpu => exact cpuStep_inv hi h
  | load image =>
    have hcopy := hi.copyImage Config.progBase image
    rw [State.load_cases h]
    exact hcopy.of_same rfl rfl rfl (fun _ => rfl) hcopy.faultRecord
  | reset => cases h; exact .afterReset hi.legal
  | tick | snapshot | press | release => cases h; exact hi.of_same rfl rfl rfl (fun _ => rfl) hi.faultRecord

/-- Settles O52: every agent's step keeps the invariant. The CPU's does because an instruction runs with `pc` at most the
capacity, which bounds both what a call pushes (R80) and, through the stack, where a return goes (R14). -/
theorem stepKeepsTheInvariant : Obligations.StepKeepsTheInvariant :=
  fun _ _ hi h => moveStep_inv hi.unscheduled h

end Sys2Proof.Machine
end

section
/-! Frames, and what nothing reads: which parts an instruction may change (R12 to R18, R24, R30, R124), which parts each agent
owns (R17, R24, R147), the values that `Reset` gives (R22, R170), and that no step reads `ST` (R16, R156). One inversion lemma
says what an instruction leaves alone, `exec_raisesOrKeepsFrame`; one says it of an agent's move, `moveStep_frame`. -/

namespace Sys2Proof.Machine

/-! Frames of the state's updates. -/

theorem Unchanged.trans {touched : Part → Prop} {s t u : State} (h : Unchanged touched s t) (h' : Unchanged touched t u) :
    Unchanged touched s u := fun p hp => by
  have e := h p hp
  have e' := h' p hp
  cases p <;> exact Eq.trans e' e

theorem State.setIndex_frame (s : State) (a : Addr) : Unchanged (· = .index) s { s with i := a } := fun p hp => by
  cases p with
  | index => exact absurd rfl hp
  | _ => rfl

theorem State.setDt_frame (s : State) (b : Byte) : Unchanged (· = .dt) s { s with dt := b } := fun p hp => by
  cases p with
  | dt => exact absurd rfl hp
  | _ => rfl

theorem State.setSt_frame (s : State) (b : Byte) : Unchanged (· = .st) s { s with st := b } := fun p hp => by
  cases p with
  | st => exact absurd rfl hp
  | _ => rfl

theorem State.setOutputs_frame (s : State) (o : List Output) : Unchanged (· = .outputs) s { s with outputs := o } :=
  fun p hp => by
    cases p with
    | outputs => exact absurd rfl hp
    | _ => rfl

theorem State.setFb_frame (s : State) (fb : Framebuffer) : Unchanged (fun p => ∃ r c, p = .pixel r c) s { s with fb := fb } :=
  fun p hp => by
    cases p with
    | pixel r c => exact absurd ⟨r, c, rfl⟩ hp
    | _ => rfl

/-- A draw of a free byte changes the count of draws alone (R101). -/
theorem State.drawByte_frame (s : State) : Unchanged (· = .draws) s s.drawByte.2 := fun p hp => by
  cases p with
  | draws => exact absurd rfl hp
  | _ => rfl

/-- The beginning of a wait changes `KEYFLAG` and `STATUS` alone (R133). -/
theorem State.beginWait_frame (s : State) (x : Reg) :
    Unchanged (fun p => p = .keyFlag ∨ p = .status) s { s with keyFlag := false, status := .waitKey x } := fun p hp => by
  cases p with
  | keyFlag => exact absurd (.inl rfl) hp
  | status => exact absurd (.inr rfl) hp
  | _ => rfl

/-- A block load changes the registers up to `x` alone (R115). -/
theorem State.loadBlock_frame (s : State) (x : Reg) (base : Nat) :
    Unchanged (fun p => ∃ r ≤ x, p = .reg r) s (s.loadBlock x base) := fun p hp => by
  cases p with
  | reg r =>
    have hr : ¬ r.val ≤ x.val := fun hr => hp ⟨r, hr, rfl⟩
    rw [Part.same, State.loadBlock_reg, if_neg hr]
  | _ => simp [Part.same]

/-- A sprite draw changes `VF` and pixels alone (R121). -/
theorem State.drawn_frame (s : State) (x y : Reg) (n : Nibble) :
    Unchanged (fun p => p = .reg vF ∨ ∃ r c, p = .pixel r c) s (s.drawn x y n) :=
  ((s.setFb_frame _).mono fun _ => .inr).trans ((State.setReg_frame _ _ _).mono fun _ => .inl)

/-- A pop changes `pc` and `sp` alone: the slot keeps its value (R80). -/
theorem State.pop_frame {s t : State} (h : s.pop = some t) : Unchanged (fun p => p = .pc ∨ p = .sp) s t := by
  obtain hsp | hsp := Nat.eq_zero_or_pos s.sp.val
  · cases (s.pop_empty hsp).symm.trans h
  · cases (s.pop_eq hsp).symm.trans h
    intro p hp
    cases p with
    | pc => exact absurd (.inl rfl) hp
    | sp => exact absurd (.inr rfl) hp
    | _ => rfl

/-- A push changes `sp` and the slot above the top alone (R82). -/
theorem State.push_frame {s t : State} (h : s.push = some t) :
    Unchanged (fun p => p = .sp ∨ ∃ j : Fin 16, j.val = s.sp.val ∧ p = .slot j) s t := by
  by_cases hsp : s.sp.val < 16
  · cases (s.push_eq hsp).symm.trans h
    intro p hp
    cases p with
    | sp => exact absurd (.inl rfl) hp
    | slot j =>
      have hj : s.sp.val ≠ j.val := fun e => hp (.inr ⟨j, e.symm, rfl⟩)
      simp [Part.same, State.slot, Vector.get_eq_getElem, Vector.getElem_set_ne, hj]
    | _ => rfl
  · cases (s.push_full (by omega)).symm.trans h

/-! What an instruction may change. -/

/-- An update of one register is within the frame of an instruction that has it as its destination. -/
theorem Unchanged.mayWrite_dest {i : Instr} {s t : State} {x : Reg} (h : Unchanged (· = .reg x) s t)
    (hx : isDestination i x = true) : Unchanged (mayWrite i s) s t :=
  h.mono fun _ e => e ▸ .inl hx

/-- An update of a result and the flag is within the frame of an instruction that defines a flag outcome (R12). -/
theorem Unchanged.mayWrite_flagAndDest {i : Instr} {s t : State} {x : Reg}
    (h : Unchanged (fun p => p = .reg x ∨ p = .reg vF) s t) (hx : isDestination i x = true) (hf : writesFlag i = true) :
    Unchanged (mayWrite i s) s t :=
  h.mono fun _ e => e.elim (fun e => e ▸ .inl hx) (fun e => e ▸ .inr ⟨hf, rfl⟩)

/-- The instruction enters a fault of R140, or changes nothing but what it may write. -/
def RaisesOrKeepsFrame (i : Instr) (s t : State) : Prop :=
  (∃ cause info, t = s.raise cause info ∧ cause ≠ .none) ∨ Unchanged (mayWrite i s) s t

theorem afterReads_raisesOrKeepsFrame {i : Instr} {s done t : State} {base n : Nat} (hdone : Unchanged (mayWrite i s) s done)
    (h : s.afterReads (effectiveAddrs base n) done = .next t) : RaisesOrKeepsFrame i s t := by
  obtain ⟨info, e⟩ | e := s.afterReads_cases base n done <;> cases e.symm.trans h
  · exact .inl ⟨_, _, rfl, nofun⟩
  · exact .inr hdone

theorem afterWrites_raisesOrKeepsFrame {i : Instr} {s done t : State} {base n : Nat} (hn : 0 < n)
    (hdone : Unchanged (mayWrite i s) s done) (h : s.afterWrites (effectiveAddrs base n) done = .next t) :
    RaisesOrKeepsFrame i s t := by
  obtain ⟨cause, info, hcause, e⟩ | ⟨-, -, e⟩ := s.afterWrites_cases base n hn done <;> cases e.symm.trans h
  · exact .inl ⟨_, _, rfl, hcause⟩
  · exact .inr hdone

/-- A block store is within the frame of an instruction that stores to its addresses (R30). -/
theorem State.storeBytes_mayWrite {i : Instr} {s : State} {base : Nat} {bytes : List Byte}
    (h : storedAddrs i s = effectiveAddrs base bytes.length) : Unchanged (mayWrite i s) s (s.storeBytes base bytes) :=
  (s.storeBytes_frame base bytes).mono <| by
    rintro _ ⟨a, ha, rfl⟩
    show a ∈ storedAddrs i s
    rwa [h]

theorem execRet_raisesOrKeepsFrame {s t : State} (h : execRet s = .next t) : RaisesOrKeepsFrame .ret s t := by
  unfold execRet at h
  split at h <;> cases h
  · next hpop =>
    refine .inr ((State.pop_frame hpop).mono ?_)
    rintro _ (rfl | rfl) <;> exact .inl rfl
  · exact .inl ⟨_, _, rfl, nofun⟩

theorem execCall_raisesOrKeepsFrame {nnn : Addr} {s t : State} (h : execCall nnn s = .next t) :
    RaisesOrKeepsFrame (.call nnn) s t := by
  unfold execCall at h
  split at h <;> cases h
  · next hpush =>
    refine .inr (((State.push_frame hpush).mono ?_).trans ((State.jump_frame _ _).mono ?_))
    · rintro _ (rfl | ⟨j, hj, rfl⟩)
      · exact .inr ⟨nnn, rfl⟩
      · exact ⟨⟨nnn, rfl⟩, hj⟩
    · rintro _ rfl
      exact .inr (.inl ⟨nnn, .inr (.inl rfl)⟩)
  · exact .inl ⟨_, _, rfl, nofun⟩

/-- All that an instruction can do, as far as its frame goes: the one case split over the instructions, each with the frame of
the update that is its meaning. -/
theorem exec_raisesOrKeepsFrame {i : Instr} {s t : State} (h : exec i s = .next t) : RaisesOrKeepsFrame i s t := by
  cases i with
  | ret => exact execRet_raisesOrKeepsFrame h
  | call nnn => exact execCall_raisesOrKeepsFrame h
  | jp | jpV0 => cases h; exact .inr ((s.jump_frame _).mono (by rintro _ rfl; simp [mayWrite]))
  | seImm | sneImm | seReg | sneReg => cases h; exact .inr ((s.skipIf_frame _).mono (by rintro _ rfl; simp [mayWrite]))
  | skp x | sknp x =>
    simp only [exec, execSkp, execSknp] at h
    split at h <;> cases h
    · exact .inr ((s.skipIf_frame _).mono (by rintro _ rfl; simp [mayWrite]))
    · exact .inl ⟨_, _, rfl, nofun⟩
  | ldImm | addImm | ldReg | orReg | andReg | xorReg | ldVxDt =>
    cases h; exact .inr ((s.setReg_frame _ _).mayWrite_dest (beq_self_eq_true _))
  | addReg => cases h; exact .inr ((s.writeSampled_frame _ _ _).mayWrite_flagAndDest (beq_self_eq_true _) rfl)
  | subReg | shr | subnReg | shl =>
    cases h; exact .inr ((s.flagAndResult_frame _ _ _ _).mayWrite_flagAndDest (beq_self_eq_true _) rfl)
  | rnd x kk =>
    cases h
    have hdraw : Unchanged (mayWrite (.rnd x kk) s) s s.drawByte.2 :=
      s.drawByte_frame.mono (by rintro _ rfl; exact ⟨x, kk, rfl⟩)
    exact .inr (hdraw.trans ((State.setReg_frame _ x _).mono (by rintro _ rfl; exact .inl (beq_self_eq_true x))))
  | ldI | addI | ldF => cases h; exact .inr ((s.setIndex_frame _).mono (by rintro _ rfl; simp [mayWrite]))
  | ldDtVx x => cases h; exact .inr ((s.setDt_frame _).mono (by rintro _ rfl; exact ⟨x, rfl⟩))
  | ldStVx x => cases h; exact .inr ((s.setSt_frame _).mono (by rintro _ rfl; exact ⟨x, rfl⟩))
  | ldVxK x => cases h; exact .inr ((s.beginWait_frame x).mono (by rintro _ (rfl | rfl) <;> exact ⟨x, rfl⟩))
  | cls => cases h; exact .inr ((s.setFb_frame _).mono (by rintro _ ⟨r, c, rfl⟩; exact .inl rfl))
  | unknown w =>
    cases h; rw [State.signalUnknown_eq]
    exact .inr ((s.setOutputs_frame _).mono (by rintro _ rfl; exact ⟨w, rfl⟩))
  | drw x y n =>
    refine afterReads_raisesOrKeepsFrame ((s.drawn_frame x y n).mono ?_) h
    rintro _ (rfl | ⟨r, c, rfl⟩)
    · exact .inr ⟨rfl, rfl⟩
    · exact .inr ⟨x, y, n, rfl⟩
  | ldVxMem x =>
    refine afterReads_raisesOrKeepsFrame ((s.loadBlock_frame x s.i.toNat).mono ?_) h
    rintro _ ⟨r, hr, rfl⟩
    exact .inl (decide_eq_true hr)
  | ldB x => exact afterWrites_raisesOrKeepsFrame (n := 3) (by decide) (State.storeBytes_mayWrite rfl) h
  | ldMemVx x =>
    have haddrs : storedAddrs (.ldMemVx x) s = effectiveAddrs s.i.toNat (s.regBlock x).length := by
      simp [storedAddrs, State.regBlock]
    exact afterWrites_raisesOrKeepsFrame (Nat.succ_pos x.val) (State.storeBytes_mayWrite haddrs) h

/-- Settles O56: an instruction that does not keep its frame has raised a fault, and what that changes is R141's. -/
theorem instructionsKeepTheirFrame : Obligations.InstructionsKeepTheirFrame := by
  intro i s t h
  obtain ⟨cause, info, rfl, hcause⟩ | hframe := exec_raisesOrKeepsFrame h
  · exact .inr ⟨cause, info, hcause, s.raise_faultEntered cause info⟩
  · exact .inl hframe

/-! What each agent owns. -/

/-- A part that an instruction may not write, and that is no part of a fault entry, is the same after it. -/
theorem exec_same {i : Instr} {s t : State} {p : Part} (h : exec i s = .next t) (hwrite : ¬ mayWrite i s p)
    (hfault : ¬ p.ofFaultEntry) : p.same s t := by
  obtain ⟨cause, info, rfl, -⟩ | hframe := exec_raisesOrKeepsFrame h
  · exact (s.raise_faultEntered cause info).frame p hfault
  · exact hframe p hwrite

/-- No instruction raises `KEYFLAG`: the only one that writes it clears it (R17, R133). -/
theorem exec_keyFlag {i : Instr} {s t : State} (h : exec i s = .next t) (ht : t.keyFlag = true) : s.keyFlag = true := by
  by_cases hi : ∃ x, i = .ldVxK x
  · obtain ⟨x, rfl⟩ := hi
    cases h
    cases ht
  · have hsame : t.keyFlag = s.keyFlag := exec_same (p := .keyFlag) h hi (by simp [Part.ofFaultEntry])
    exact hsame ▸ ht

/-- The CPU changes no key (R17). -/
theorem cpuStep_held {s t : State} (h : cpuStep s = .next t) (k : Key) : t.held k = s.held k := by
  obtain ⟨-, h⟩ | ⟨x, -, ⟨-, rfl⟩ | ⟨-, rfl⟩⟩ := cpuStep_cases s t h
  · obtain ⟨-, rfl⟩ | ⟨-, rfl⟩ | ⟨-, h⟩ := runningStep_cases s.begun t h
    · rfl
    · rfl
    · exact exec_same (s := s.begun.advanced) (p := .key k) h id (by simp [Part.ofFaultEntry])
  · rfl
  · obtain ⟨n, b, e⟩ := s.begun.completeWait_eq x
    rw [e]; rfl

/-- The CPU never raises `KEYFLAG` (R17). -/
theorem cpuStep_keyFlag {s t : State} (h : cpuStep s = .next t) (ht : t.keyFlag = true) : s.keyFlag = true := by
  obtain ⟨-, h⟩ | ⟨x, -, ⟨-, rfl⟩ | ⟨hflag, -⟩⟩ := cpuStep_cases s t h
  · obtain ⟨-, rfl⟩ | ⟨-, rfl⟩ | ⟨-, h⟩ := runningStep_cases s.begun t h
    · exact ht
    · exact ht
    · exact exec_keyFlag (s := s.begun.advanced) h ht
  · exact ht
  · exact hflag

/-- The parts that an agent's move may change, besides the schedule; of the CPU it says only that the keys are not its own, for
what it writes is each instruction's frame (R17, R24, R147). -/
def Move.owns : Move → Part → Prop
  | .cpu, p => ∀ k, p ≠ .key k
  | .tick, p => p = .dt ∨ p = .st
  | .snapshot, p => p = .outputs
  | .press k, p => p = .key k ∨ p = .keyFlag
  | .release k, p => p = .key k
  | .reset, _ => True
  | .load _, p => p = .boot ∨ ∃ a, p = .byte a

theorem State.tick_frame (s : State) : Unchanged (fun p => p = .dt ∨ p = .st) s s.tick :=
  fun p hp => by
    cases p with
    | dt => exact absurd (.inl rfl) hp
    | st => exact absurd (.inr rfl) hp
    | _ => rfl

theorem State.press_frame (s : State) (k : Key) : Unchanged (fun p => p = .key k ∨ p = .keyFlag) s (s.press k) :=
  fun p hp => by
    cases p with
    | key k' => exact (s.press_held k k').trans (if_neg fun e : k' = k => hp (.inl (e ▸ rfl)))
    | keyFlag => exact absurd (.inr rfl) hp
    | _ => rfl

theorem State.release_frame (s : State) (k : Key) : Unchanged (· = .key k) s (s.release k) := fun p hp => by
  cases p with
  | key k' => exact (s.release_held k k').trans (if_neg fun e : k' = k => hp (e ▸ rfl))
  | _ => rfl

/-- A `Load` that is taken changes memory and the boot phase alone (R173). -/
theorem State.load_frame {s t : State} {image : List Byte} (h : s.load image = .next t) :
    Unchanged (fun p => p = .boot ∨ ∃ a, p = .byte a) s t := by
  rw [State.load_cases h, State.copyImage_eq]
  intro p hp
  cases p with
  | boot => exact absurd (.inl rfl) hp
  | byte a => exact absurd (.inr ⟨a, rfl⟩) hp
  | _ => rfl

/-- All that an agent's move can change (R65). -/
theorem moveStep_frame {m : Move} {s t : State} (h : moveStep m s = .next t) : Unchanged m.owns s t := by
  cases m with
  | cpu =>
    intro p hp
    obtain ⟨k, rfl⟩ : ∃ k, p = .key k := by simpa [Move.owns] using hp
    exact cpuStep_held h k
  | tick => cases h; exact s.tick_frame
  | snapshot => cases h; exact s.setOutputs_frame _
  | press k => cases h; exact s.press_frame k
  | release k => cases h; exact s.release_frame k
  | reset => exact fun _ hp => absurd trivial hp
  | load image => exact State.load_frame h

/-- Only a `Press` raises `KEYFLAG` (R17). -/
theorem moveStep_raises_keyFlag {m : Move} {s t : State} (h : moveStep m s = .next t) (hm : ∀ k, m ≠ .press k)
    (ht : t.keyFlag = true) : s.keyFlag = true := by
  cases m with
  | cpu => exact cpuStep_keyFlag h ht
  | press k => exact absurd rfl (hm k)
  | reset => cases h; cases ht
  | tick | snapshot | release | load =>
    have hsame : t.keyFlag = s.keyFlag := moveStep_frame h .keyFlag (by simp [Move.owns])
    exact hsame ▸ ht

/-- Only the CPU and `Reset` clear `KEYFLAG` (R17). -/
theorem moveStep_keeps_keyFlag {m : Move} {s t : State} (h : moveStep m s = .next t) (hcpu : m ≠ .cpu) (hreset : m ≠ .reset)
    (hs : s.keyFlag = true) : t.keyFlag = true := by
  cases m with
  | cpu => exact absurd rfl hcpu
  | reset => exact absurd rfl hreset
  | press k => cases h; rfl
  | tick | snapshot | release | load =>
    have hsame : t.keyFlag = s.keyFlag := moveStep_frame h .keyFlag (by simp [Move.owns])
    exact hsame.trans hs

/-- A key is owned by its own `Press` and `Release` and by `Reset` alone (R17). -/
theorem Move.not_owns_key {m : Move} {k : Key} (hpress : m ≠ .press k) (hrelease : m ≠ .release k) (hreset : m ≠ .reset) :
    ¬ m.owns (.key k) := by
  cases m <;> simp_all [Move.owns, eq_comm]

/-- The parts that are the CPU's, as no other agent's but `Reset` (R24). -/
def Part.ofCpu : Part → Prop
  | .reg _ | .index | .pc | .sp | .slot _ | .pixel _ _ | .status | .fault => True
  | .dt | .st | .key _ | .keyFlag | .byte _ | .boot | .schedule | .draws | .outputs | .cfg => False

theorem Move.not_owns_ofCpu {m : Move} {p : Part} (hcpu : m ≠ .cpu) (hreset : m ≠ .reset) (hp : p.ofCpu) : ¬ m.owns p := by
  cases m with
  | cpu => exact absurd rfl hcpu
  | reset => exact absurd rfl hreset
  | tick | snapshot | press | release | load => cases p <;> simp_all [Move.owns, Part.ofCpu]

theorem Move.not_owns_byte {m : Move} (hcpu : m ≠ .cpu) (hreset : m ≠ .reset) (hload : ∀ image, m ≠ .load image) (a : Nat) :
    ¬ m.owns (.byte a) := by
  cases m <;> simp_all [Move.owns]

theorem Move.not_owns_timer {m : Move} {p : Part} (hcpu : m ≠ .cpu) (hreset : m ≠ .reset) (htick : m ≠ .tick)
    (hp : p = .dt ∨ p = .st) : ¬ m.owns p := by
  obtain rfl | rfl := hp <;> cases m <;> simp_all [Move.owns]

/-- Settles O58: each part is outside what the moving agent owns; `KEYFLAG` goes by its two one-way rules. -/
theorem agentsKeepTheirOwnership : Obligations.AgentsKeepTheirOwnership := by
  intro s t h
  have hframe : Unchanged s.nextMove.owns s.unscheduled t := moveStep_frame h
  refine ⟨fun k hpress hrelease hreset => hframe (.key k) (Move.not_owns_key hpress hrelease hreset),
    fun hpress => moveStep_raises_keyFlag (s := s.unscheduled) h hpress, fun hcpu hreset => ?_⟩
  have hown (p : Part) (hp : p.ofCpu) : p.same s.unscheduled t := hframe p (Move.not_owns_ofCpu hcpu hreset hp)
  have htimer (htick : s.nextMove ≠ .tick) (p : Part) (hp : p = .dt ∨ p = .st) : p.same s.unscheduled t :=
    hframe p (Move.not_owns_timer hcpu hreset htick hp)
  exact ⟨moveStep_keeps_keyFlag (s := s.unscheduled) h hcpu hreset, fun r => hown (.reg r) trivial, hown .index trivial,
    hown .pc trivial, hown .sp trivial, fun j => hown (.slot j) trivial, fun r c => hown (.pixel r c) trivial, hown .status trivial,
    hown .fault trivial, fun hload a => hframe (.byte a) (Move.not_owns_byte hcpu hreset hload a),
    fun htick => ⟨htimer htick .dt (.inl rfl), htimer htick .st (.inr rfl)⟩⟩

/-! Nothing reads the sound timer. -/

/-- The state with another value in `ST`. -/
def State.withSt (s : State) (a : Byte) : State := { s with st := a }

theorem State.withSt_skipIf (s : State) (a : Byte) (b : Bool) : (s.withSt a).skipIf b = (s.skipIf b).withSt a := by
  cases b <;> rfl

theorem State.withSt_signalUnknown (s : State) (a : Byte) (w : Word) :
    (s.withSt a).signalUnknown w = (s.signalUnknown w).withSt a := by
  have hcfg : (s.withSt a).cfg = s.cfg := rfl
  unfold State.signalUnknown
  rw [hcfg]
  split <;> rfl

theorem State.withSt_writeSampled (s : State) (a : Byte) (x : Reg) (flag : Bool) (result : Byte) :
    (s.withSt a).writeSampled x flag result = (s.writeSampled x flag result).withSt a := by
  have hcfg : (s.withSt a).cfg = s.cfg := rfl
  unfold State.writeSampled
  rw [hcfg]
  cases s.cfg.vfOperand <;> rfl

theorem State.withSt_flagAndResult (s : State) (a : Byte) (x y : Reg) (f : Byte → Byte → Bool) (r : Byte → Byte → Byte) :
    (s.withSt a).flagAndResult x y f r = (s.flagAndResult x y f r).withSt a := by
  by_cases hp : s.cfg.vfOperand = .sequentialText
  · rw [s.flagAndResult_sequential x y f r hp, (s.withSt a).flagAndResult_sequential x y f r hp]; rfl
  · rw [s.flagAndResult_sampled x y f r hp, (s.withSt a).flagAndResult_sampled x y f r hp]
    exact s.withSt_writeSampled a x _ _

theorem State.withSt_storeBytes (s : State) (a : Byte) (base : Nat) (bytes : List Byte) :
    (s.withSt a).storeBytes base bytes = (s.storeBytes base bytes).withSt a := by
  induction bytes generalizing s base with
  | nil => rfl
  | cons b bs ih => exact ih (s.writeByte base b) (base + 1)

theorem State.withSt_copyImage (s : State) (a : Byte) (base : Nat) (image : List Byte) :
    (s.withSt a).copyImage base image = (s.copyImage base image).withSt a := by
  induction image generalizing s base with
  | nil => rfl
  | cons b bs ih =>
    have hcfg : (s.withSt a).cfg = s.cfg := rfl
    rw [State.copyImage, State.copyImage, hcfg]
    split
    · exact ih (s.writeByte base b) (base + 1)
    · rfl

theorem State.withSt_completeWait (s : State) (a : Byte) (x : Reg) :
    (s.withSt a).completeWait x = (s.completeWait x).withSt a := by
  have hkey : (s.withSt a).lowestHeld = s.lowestHeld := rfl
  unfold State.completeWait State.keyDelivered
  rw [hkey]
  cases s.lowestHeld <;> rfl

/-- Two answers that stop alike, or are next states that differ in `ST` alone. -/
inductive AgreeButSt : Result → Result → Prop
  | next (t : State) (b : Byte) : AgreeButSt (.next t) (.next (t.withSt b))
  | fault (f : Fault) : AgreeButSt (.fault f) (.fault f)
  | refused (r : Refusal) : AgreeButSt (.refused r) (.refused r)

theorem AgreeButSt.of_eq {t u : State} {b : Byte} (h : u = t.withSt b) : AgreeButSt (.next t) (.next u) :=
  h ▸ .next t b

theorem AgreeButSt.of_fault {f : Fault} {r : Result} (h : AgreeButSt (.fault f) r) : r = .fault f := by
  cases h; rfl

theorem AgreeButSt.of_next {t : State} {r : Result} (h : AgreeButSt (.next t) r) : ∃ b, r = .next (t.withSt b) := by
  cases h with
  | next _ b => exact ⟨b, rfl⟩

theorem AgreeButSt.afterReads (s : State) {done done' : State} {a : Byte} (addrs : List Nat)
    (h : done' = done.withSt a) : AgreeButSt (s.afterReads addrs done) ((s.withSt a).afterReads addrs done') := by
  have hcheck : (s.withSt a).checkReads addrs = s.checkReads addrs := rfl
  unfold State.afterReads
  rw [hcheck]
  cases s.checkReads addrs with
  | none => exact .of_eq h
  | some => exact .next _ a

theorem AgreeButSt.afterWrites (s : State) {done done' : State} {a : Byte} (addrs : List Nat)
    (h : done' = done.withSt a) : AgreeButSt (s.afterWrites addrs done) ((s.withSt a).afterWrites addrs done') := by
  have hcheck : (s.withSt a).checkWrites addrs = s.checkWrites addrs := rfl
  unfold State.afterWrites
  rw [hcheck]
  cases s.checkWrites addrs with
  | none => exact .of_eq h
  | some => exact .next _ a

theorem execRet_agreeButSt (s : State) (a : Byte) : AgreeButSt (execRet s) (execRet (s.withSt a)) := by
  unfold execRet
  obtain hsp | hsp := Nat.eq_zero_or_pos s.sp.val
  · rw [s.pop_empty hsp, (s.withSt a).pop_empty hsp]; exact .next _ a
  · rw [s.pop_eq hsp, (s.withSt a).pop_eq hsp]; exact .next _ a

theorem execCall_agreeButSt (nnn : Addr) (s : State) (a : Byte) :
    AgreeButSt (execCall nnn s) (execCall nnn (s.withSt a)) := by
  unfold execCall
  by_cases hsp : s.sp.val < 16
  · rw [s.push_eq hsp, (s.withSt a).push_eq hsp]; exact .next _ a
  · have hfull : s.sp.val = 16 := by omega
    rw [s.push_full hfull, (s.withSt a).push_full hfull]; exact .next _ a

/-- No instruction reads `ST`; the one that writes it, `Fx18`, makes the two states equal (R136). -/
theorem exec_agreeButSt (i : Instr) (s : State) (a : Byte) : AgreeButSt (exec i s) (exec i (s.withSt a)) := by
  cases i with
  | ret => exact execRet_agreeButSt s a
  | call nnn => exact execCall_agreeButSt nnn s a
  | seImm | sneImm | seReg | sneReg => exact .of_eq (s.withSt_skipIf a _)
  | skp x | sknp x =>
    have hkey : (s.withSt a).keyReading ((s.withSt a).reg x) = s.keyReading (s.reg x) := rfl
    simp only [exec, execSkp, execSknp, hkey]
    cases s.keyReading (s.reg x) with
    | none => exact .next _ a
    | some => exact .of_eq (s.withSt_skipIf a _)
  | addReg x => exact .of_eq (s.withSt_writeSampled a x _ _)
  | subReg x y | shr x y | subnReg x y | shl x y => exact .of_eq (s.withSt_flagAndResult a x y _ _)
  | drw x y n => exact .afterReads s _ rfl
  | ldVxMem x => exact .afterReads s _ rfl
  | ldB | ldMemVx => exact .afterWrites s _ (s.withSt_storeBytes a _ _)
  | unknown w => exact .of_eq (s.withSt_signalUnknown a w)
  | ldStVx x => exact .next { s with st := s.reg x } (s.reg x)
  | cls | jp | jpV0 | ldImm | addImm | ldReg | orReg | andReg | xorReg | ldI | rnd | ldVxDt | ldVxK | ldDtVx | addI | ldF =>
    exact .next _ a

theorem runningStep_agreeButSt (s : State) (a : Byte) : AgreeButSt (runningStep s) (runningStep (s.withSt a)) := by
  have hcfg : (s.withSt a).cfg = s.cfg := rfl
  have hpc : (s.withSt a).pc = s.pc := rfl
  unfold runningStep
  rw [hcfg, hpc]
  split
  · exact .next s.halt a
  · split
    · exact .next _ a
    · exact exec_agreeButSt (decodeWord s.fetchWord) s.advanced a

theorem cpuStep_agreeButSt (s : State) (a : Byte) : AgreeButSt (cpuStep s) (cpuStep (s.withSt a)) := by
  have hstatus : (s.withSt a).status = s.status := rfl
  have hflag : (s.withSt a).keyFlag = s.keyFlag := rfl
  unfold cpuStep
  rw [hstatus, hflag]
  cases s.status with
  | running => exact runningStep_agreeButSt s.begun a
  | waitKey x =>
    cases s.keyFlag
    · exact .next s a
    · exact .of_eq (s.begun.withSt_completeWait a x)
  | halted | faulted => exact .fault _

theorem State.load_agreeButSt (s : State) (a : Byte) (image : List Byte) :
    AgreeButSt (s.load image) ((s.withSt a).load image) := by
  have hboot : (s.withSt a).boot = s.boot := rfl
  unfold State.load
  rw [hboot]
  cases s.boot with
  | fresh => rw [s.withSt_copyImage]; exact .next _ a
  | loaded | started => exact .fault _

theorem moveStep_agreeButSt (m : Move) (s : State) (a : Byte) : AgreeButSt (moveStep m s) (moveStep m (s.withSt a)) := by
  cases m with
  | cpu => exact cpuStep_agreeButSt s a
  | load image => exact s.load_agreeButSt a image
  | tick => exact .next s.tick (countDown a)
  | reset => exact .next s.afterReset s.afterReset.st
  | snapshot | press | release => exact .next _ a

/-- Settles O59: no agent's move reads `ST`, so it answers alike from a state with another value there. -/
theorem soundTimerIsNeverRead : Obligations.SoundTimerIsNeverRead := by
  intro s a
  have h : AgreeButSt (step s) (step { s with st := a }) := moveStep_agreeButSt s.nextMove s.unscheduled a
  exact ⟨fun f hf => (hf ▸ h).of_fault, fun t ht => (ht ▸ h).of_next⟩

/-! Returns and reset. -/

/-- Settles O16: the return is a pop, which changes `pc` and `sp` alone. -/
theorem returnPopsTheStack : Obligations.ReturnPopsTheStack := by
  intro s hsp
  have hpop := s.pop_eq hsp
  exact ⟨_, by rw [exec, execRet, hpop], rfl, rfl, State.pop_frame hpop⟩

/-- After `Reset` every part is as at reset, but for the schedule, the draws, the outputs and the parameters (log 16), and the
bytes, whose font is the configuration's. -/
theorem State.afterReset_frame (s : State) :
    Unchanged (fun p => p = .schedule ∨ p = .draws ∨ p = .outputs ∨ p = .cfg ∨ ∃ a, p = .byte a) State.reset s.afterReset :=
  fun p hp => by
    cases p with
    | schedule | draws | outputs | cfg | byte => simp at hp
    | _ => rfl

/-- The move of `Reset` keeps the draws, the outputs and the parameters (log 16). -/
theorem State.unscheduled_afterReset_keeps (s : State) :
    Unchanged (fun p => ¬ (p = .draws ∨ p = .outputs ∨ p = .cfg)) s s.unscheduled.afterReset := fun p hp => by
  obtain rfl | rfl | rfl := Classical.not_not.mp hp <;> rfl

/-- Settles O50: the step is `State.afterReset` on the state whose schedule has lost its head. -/
theorem resetRestoresTheMachine : Obligations.ResetRestoresTheMachine := by
  intro s rest h
  have hschedule : s.unscheduled.afterReset.schedule = rest := congrArg List.tail h
  exact ⟨_, step_of_nextMove s .reset (nextMove_of_schedule s .reset rest h), rfl, s.unscheduled.afterReset_frame,
    hschedule, s.unscheduled_afterReset_keeps⟩

/-- After reset every cell reads as one that nothing has written (R22, R31). -/
theorem State.reset_readByte (a : Nat) : State.reset.readByte a = Memory.unlisted State.reset.cfg a := rfl

/-- Settles O51: the cells read as unwritten ones, and the registers, slots, keys and pixels as what fills them at reset. -/
theorem resetValues : Obligations.ResetValues := by
  refine ⟨rfl, fun a h => ?_, fun a h => ?_, fun r => ?_, rfl, rfl, fun j => ?_, rfl, rfl, fun k => ?_, rfl,
    fun r c => ?_, rfl, rfl⟩
  · rw [State.reset_readByte, Memory.unlisted, dif_pos h]
  · rw [State.reset_readByte, Memory.unlisted, dif_neg (Nat.not_lt.mpr h)]
  · simp [State.reg, State.reset, Vector.get_eq_getElem]
  · simp [State.slot, State.reset, Vector.get_eq_getElem]
  · simp [State.held, State.reset, Vector.get_eq_getElem]
  · simp [State.pixel, pixelOf, State.reset, Vector.get_eq_getElem]

/-- Settles O53: the reset state is what `Reset` makes of itself, at the legal capacity 4096. -/
theorem resetHasTheInvariant : Obligations.ResetHasTheInvariant :=
  State.Inv.afterReset (s := State.reset) (.inl rfl)

end Sys2Proof.Machine
end

section
/-! Decoding what was encoded (20_memory.md R34; 30_encoding.md R50 to R56): the decoder reads every encoded word as its
instruction, and a word that no row matches as unknown. -/

namespace Sys2Proof

/-! Words that no row of the opcode table matches. -/

theorem decodeGroup0_unknown {w : Word} (h : w ≠ 0x00E0) (h' : w ≠ 0x00EE) : decodeGroup0 w = .unknown w := by
  rw [decodeGroup0, if_neg h, if_neg h']

theorem decodeGroup8_unknown {w : Word} (h : ¬ ((nField w).toNat ≤ 7 ∨ (nField w).toNat = 14)) :
    decodeGroup8 w = .unknown w := by
  unfold decodeGroup8
  split
  case h_10 => rfl
  all_goals omega

theorem decodeGroupE_unknown {w : Word} (h : ¬ ((kkField w).toNat = 0x9E ∨ (kkField w).toNat = 0xA1)) :
    decodeGroupE w = .unknown w := by
  unfold decodeGroupE
  split
  case h_3 => rfl
  all_goals omega

theorem decodeGroupF_unknown {w : Word}
    (h : ¬ ((kkField w).toNat = 0x07 ∨ (kkField w).toNat = 0x0A ∨ (kkField w).toNat = 0x15 ∨ (kkField w).toNat = 0x18 ∨
      (kkField w).toNat = 0x1E ∨ (kkField w).toNat = 0x29 ∨ (kkField w).toNat = 0x33 ∨ (kkField w).toNat = 0x55 ∨
      (kkField w).toNat = 0x65)) :
    decodeGroupF w = .unknown w := by
  unfold decodeGroupF
  split
  case h_10 => rfl
  all_goals omega

/-- A word that no row of format Z, A, RI or RRN matches is neither of format Z and has one of six first nibbles. -/
theorem not_any_rowsWide {w : Word} (h : ¬ opcodeRowsWide.any (·.isMatch w) = true) :
    w ≠ 0x00E0 ∧ w ≠ 0x00EE ∧ (opField w = 0 ∨ opField w = 5 ∨ opField w = 8 ∨ opField w = 9 ∨ opField w = 14 ∨
      opField w = 15) := by
  have hlt : opField w < 16 := (w.extractLsb' 12 4).isLt
  simp only [any_rowsWide, not_or] at h
  obtain ⟨hcls, hret, hop⟩ := h
  refine ⟨hcls, hret, ?_⟩
  clear hcls hret
  omega

/-- A word that matches no pattern decodes to itself (R56): its first nibble is one of six that have unknown words, and the
rest of it selects no pattern of that group. -/
theorem decodeWord_of_not_known {w : Word} (h : isKnownWord w = false) : decodeWord w = .unknown w := by
  rw [← Bool.not_eq_true, isKnownWord_iff, not_or, not_or, any_rowsRR, any_rowsR] at h
  obtain ⟨hwide, hrr, hr⟩ := h
  obtain ⟨hcls, hret, hop⟩ := not_any_rowsWide hwide
  have hn : nField w = 0 ↔ (nField w).toNat = 0 := by rw [← BitVec.toNat_inj]; rfl
  obtain hop | hop | hop | hop | hop | hop := hop <;> simp only [decodeWord, hop]
  · exact decodeGroup0_unknown hcls hret
  · exact if_neg fun h => hrr (.inl ⟨hop, hn.mp h⟩)
  · exact decodeGroup8_unknown fun h => hrr (.inr (.inl ⟨hop, h⟩))
  · exact if_neg fun h => hrr (.inr (.inr ⟨hop, hn.mp h⟩))
  · exact decodeGroupE_unknown fun h => hr (.inl ⟨hop, h⟩)
  · exact decodeGroupF_unknown fun h => hr (.inr ⟨hop, h⟩)

/-- The decoder reads the word of a well-formed instruction as the instruction: the fields of its format are its operands. -/
theorem decodeWord_encode {i : Instr} (h : i.wellFormed = true) : decodeWord (encode i) = i := by
  cases i with
  | cls | ret => decide
  | jp | call | ldI | jpV0 | seImm | sneImm | ldImm | addImm | rnd | seReg | sneReg | drw => simp [encode, decodeWord]
  | ldReg | orReg | andReg | xorReg | addReg | subReg | shr | subnReg | shl => simp [encode, decodeWord, decodeGroup8]
  | skp | sknp => simp [encode, decodeWord, decodeGroupE]
  | ldVxDt | ldVxK | ldDtVx | ldStVx | addI | ldF | ldB | ldMemVx | ldVxMem => simp [encode, decodeWord, decodeGroupF]
  | unknown w => exact decodeWord_of_not_known ((Bool.not_eq_true' _).mp h)

/-- Settles O3: the bytes give the word back in either order, and the word its instruction. -/
theorem decodeInvertsEncode : Obligations.DecodeInvertsEncode := by
  intro order i rest h
  rw [encodeBytes, decode_bytes, decodeWord_encode h]

end Sys2Proof
end

section
/-! The font's integrity (20_memory.md R31, R37; 70_reset_and_hazards.md R173): a store of the CPU is checked, an image is
copied above the font, and `Reset` leaves every cell as one that nothing has written. -/

namespace Sys2Proof.Machine

/-- The font is in place in any state with the same memory and configuration. -/
theorem State.FontIntact.of_same {s t : State} (hs : s.FontIntact) (hmem : t.mem = s.mem) (hcfg : t.cfg = s.cfg) :
    t.FontIntact := by
  intro a ha
  rw [State.readByte, hmem, hcfg]
  exact hs a ha

/-- A block of stores above the font leaves it in place. -/
theorem State.FontIntact.storeBytes {s : State} (hs : s.FontIntact) {base : Nat} (hbase : 80 ≤ base) (bytes : List Byte) :
    (s.storeBytes base bytes).FontIntact := by
  intro a ha
  rw [State.readByte_storeBytes, dif_neg (by omega), State.storeBytes_cfg]
  exact hs a ha

/-- An image copied above the font leaves it in place (R173). -/
theorem State.FontIntact.copyImage {s : State} (hs : s.FontIntact) {base : Nat} (hbase : 80 ≤ base) (image : List Byte) :
    (s.copyImage base image).FontIntact := by
  intro a ha
  rw [State.readByte_copyImage, dif_neg (by omega), State.copyImage_cfg]
  exact hs a ha

/-- `Reset` puts the font in place, whatever the state was (R31, R170). -/
theorem State.afterReset_fontIntact (s : State) : s.afterReset.FontIntact := fun a ha => dif_pos (c := a < 80) ha

/-- Under the spec's font policy no instruction changes a font byte: what it stores lies above the font (R37). -/
theorem exec_fontIntact {i : Instr} {s t : State} (hpolicy : s.cfg.fontWrite = .fault) (hs : s.FontIntact)
    (h : exec i s = .next t) : t.FontIntact := by
  have hcfg : t.cfg = s.cfg := exec_cfg h
  obtain hmem | ⟨base, bytes, hmem, -, hbase⟩ := exec_memory i s t h
  · exact hs.of_same hmem hcfg
  · have hstore := hs.storeBytes (hbase.resolve_right (absurd hpolicy)) bytes
    exact hstore.of_same hmem (hcfg.trans (s.storeBytes_cfg base bytes).symm)

theorem cpuStep_fontIntact {s t : State} (hpolicy : s.cfg.fontWrite = .fault) (hs : s.FontIntact)
    (h : cpuStep s = .next t) : t.FontIntact := by
  obtain ⟨-, h⟩ | ⟨x, -, ⟨-, rfl⟩ | ⟨-, rfl⟩⟩ := cpuStep_cases s t h
  · obtain ⟨-, rfl⟩ | ⟨-, rfl⟩ | ⟨-, h⟩ := runningStep_cases s.begun t h
    · exact hs.of_same rfl rfl
    · exact hs.of_same rfl rfl
    · exact exec_fontIntact (s := s.begun.advanced) hpolicy hs h
  · exact hs
  · obtain ⟨n, b, e⟩ := s.begun.completeWait_eq x
    rw [e]
    exact hs.of_same rfl rfl

theorem moveStep_fontIntact {m : Move} {s t : State} (hpolicy : s.cfg.fontWrite = .fault) (hs : s.FontIntact)
    (h : moveStep m s = .next t) : t.FontIntact := by
  cases m with
  | cpu => exact cpuStep_fontIntact hpolicy hs h
  | load image =>
    rw [State.load_cases h]
    exact (hs.copyImage (base := Config.progBase) (by decide) image).of_same rfl rfl
  | reset => cases h; exact s.afterReset_fontIntact
  | tick | snapshot | press | release => cases h; exact hs.of_same rfl rfl

/-- Settles O54: every agent's step keeps the font, the CPU's because a store to the font region faults (D8). -/
theorem stepKeepsTheFont : Obligations.StepKeepsTheFont :=
  fun s _ hpolicy hs h => moveStep_fontIntact (s := s.unscheduled) hpolicy hs h

end Sys2Proof.Machine
end

section
/-! Loads and stores (20_memory.md R36 to R38, R43; 43_index_memory.md R113 to R115): a guarded access answers its update
where every address passes the check, and a fault entry that changes nothing else where one does not; and what is stored at
`pc` is fetched by the next step. -/

namespace Sys2Proof.Machine

/-! The guarded accesses, case by case (R38). -/

section Guarded
variable {s : State} {base n : Nat} {done : State}

/-- Where the cells exist and may be written, a guarded write is its update. -/
theorem State.afterWrites_writable (hn : 0 < n) (hfit : base + n ≤ s.cfg.memSize)
    (hfont : 80 ≤ base ∨ s.cfg.fontWrite = .allow) : s.afterWrites (effectiveAddrs base n) done = .next done := by
  have hopen : ¬ (base < 80 ∧ s.cfg.fontWrite = .fault) := by
    rintro ⟨hlow, hpolicy⟩
    obtain hhigh | hallow := hfont
    · omega
    · cases hpolicy.symm.trans hallow
  rw [s.afterWrites_eq base n hn, if_neg (Nat.not_lt.mpr hfit), if_neg hopen]

/-- With an address outside memory a guarded write enters `MEM_BOUNDS` for the lowest one (R37, R143). -/
theorem State.afterWrites_outside (hn : 0 < n) (hout : s.cfg.memSize < base + n) :
    ∃ t, s.afterWrites (effectiveAddrs base n) done = .next t ∧
      FaultEntered s t .memBounds (max base s.cfg.memSize) :=
  ⟨_, by rw [s.afterWrites_eq base n hn, if_pos hout], s.raise_faultEntered _ _⟩

/-- Inside memory, with its base in the protected font, a guarded write enters `FONT_WRITE` for the base (R37, D8). -/
theorem State.afterWrites_font (hn : 0 < n) (hfit : base + n ≤ s.cfg.memSize) (hlow : base < 80)
    (hpolicy : s.cfg.fontWrite = .fault) :
    ∃ t, s.afterWrites (effectiveAddrs base n) done = .next t ∧ FaultEntered s t .fontWrite base :=
  ⟨_, by rw [s.afterWrites_eq base n hn, if_neg (Nat.not_lt.mpr hfit), if_pos ⟨hlow, hpolicy⟩], s.raise_faultEntered _ _⟩

/-- Where the cells exist, a guarded read is its update. -/
theorem State.afterReads_inside (hfit : base + n ≤ s.cfg.memSize) :
    s.afterReads (effectiveAddrs base n) done = .next done := by
  rw [s.afterReads_eq, if_neg (by omega)]

/-- With an address outside memory a guarded read enters `MEM_BOUNDS` for the lowest one (R36). -/
theorem State.afterReads_outside (hn : 0 < n) (hout : s.cfg.memSize < base + n) :
    ∃ t, s.afterReads (effectiveAddrs base n) done = .next t ∧
      FaultEntered s t .memBounds (max base s.cfg.memSize) :=
  ⟨_, by rw [s.afterReads_eq, if_pos ⟨hout, hn⟩], s.raise_faultEntered _ _⟩

end Guarded

/-! The blocks that are stored. -/

/-- The cell `j` places into a block of stores reads as the block's byte `j`. -/
theorem State.readByte_storeBytes_add (s : State) (base : Nat) (bytes : List Byte) (j : Nat) (hj : j < bytes.length) :
    (s.storeBytes base bytes).readByte (base + j) = bytes[j] := by
  have hin : base ≤ base + j ∧ base + j - base < bytes.length := by omega
  rw [State.readByte_storeBytes, dif_pos hin]
  simp only [Nat.add_sub_cancel_left]

theorem State.regBlock_length (s : State) (x : Reg) : (s.regBlock x).length = x.val + 1 := by
  simp [State.regBlock]

theorem State.readByte_storeBytes_regBlock (s : State) {x j : Reg} (hj : j ≤ x) (base : Nat) :
    (s.storeBytes base (s.regBlock x)).readByte (base + j.val) = s.reg j := by
  have hlt : j.val < (s.regBlock x).length := by rw [s.regBlock_length]; exact Nat.lt_succ_of_le hj
  rw [s.readByte_storeBytes_add base _ j.val hlt]
  simp [State.regBlock, State.reg, Vector.get_eq_getElem]

/-! What the stores and the load answer. -/

/-- `Fx33` where its cells may be written (R113). -/
theorem exec_ldB_writable {x : Reg} {s : State} (hfit : s.i.toNat + 2 < s.cfg.memSize)
    (hfont : 80 ≤ s.i.toNat ∨ s.cfg.fontWrite = .allow) :
    exec (.ldB x) s = .next (s.storeBytes s.i.toNat (decimalDigits (s.reg x))) :=
  State.afterWrites_writable (n := 3) (by decide) hfit hfont

/-- `Fx55` where its cells may be written (R114). -/
theorem exec_ldMemVx_writable {x : Reg} {s : State} (hfit : s.i.toNat + x.val < s.cfg.memSize)
    (hfont : 80 ≤ s.i.toNat ∨ s.cfg.fontWrite = .allow) :
    exec (.ldMemVx x) s = .next (s.storeBytes s.i.toNat (s.regBlock x)) :=
  State.afterWrites_writable (Nat.succ_pos _) hfit hfont

/-- `Fx65` where its cells exist (R115). -/
theorem exec_ldVxMem_inside {x : Reg} {s : State} (hfit : s.i.toNat + x.val < s.cfg.memSize) :
    exec (.ldVxMem x) s = .next (s.loadBlock x s.i.toNat) :=
  State.afterReads_inside hfit

/-- Settles O32: the three digits are the block that is stored. -/
theorem decimalDigitsAreStored : Obligations.DecimalDigitsAreStored := by
  intro x s hfit hfont
  have hlt : (s.reg x).toNat < 256 := (s.reg x).isLt
  have hread (j : Nat) (hj : j < 3) :=
    s.readByte_storeBytes_add s.i.toNat (decimalDigits (s.reg x)) j hj
  refine ⟨_, exec_ldB_writable hfit hfont, ?_, ?_, ?_, s.storeBytes_frame _ (decimalDigits (s.reg x))⟩
  · exact (congrArg BitVec.toNat (hread 0 (by decide))).trans (Nat.mod_eq_of_lt (by omega))
  · exact (congrArg BitVec.toNat (hread 1 (by decide))).trans (Nat.mod_eq_of_lt (by omega))
  · exact (congrArg BitVec.toNat (hread 2 (by decide))).trans (Nat.mod_eq_of_lt (by omega))

/-- Settles O33: the registers up to `x` are the block that is stored. -/
theorem registersAreStored : Obligations.RegistersAreStored := by
  intro x s hfit hfont
  refine ⟨_, exec_ldMemVx_writable hfit hfont, fun j hj => s.readByte_storeBytes_regBlock hj _, ?_⟩
  rw [← s.regBlock_length x]
  exact s.storeBytes_frame _ _

/-- Settles O34: the load is a block load, whose frame is the registers up to `x`. -/
theorem registersAreLoaded : Obligations.RegistersAreLoaded := by
  intro x s hfit
  exact ⟨_, exec_ldVxMem_inside hfit, fun j hj => (s.loadBlock_reg x _ j).trans (if_pos hj), s.loadBlock_frame x _⟩

/-- Settles O35: the two stores are guarded writes of 3 and of `x + 1` cells, and a fault entry stores nothing. -/
theorem storesCheckBeforeWriting : Obligations.StoresCheckBeforeWriting := fun x s =>
  ⟨fun hout => State.afterWrites_outside (n := 3) (by decide) (Nat.lt_succ_of_le hout),
    fun hout => State.afterWrites_outside (Nat.succ_pos x.val) (Nat.lt_succ_of_le hout),
    fun hfit hlow hpolicy => State.afterWrites_font (n := 3) (by decide) hfit hlow hpolicy,
    fun hfit hlow hpolicy => State.afterWrites_font (Nat.succ_pos x.val) hfit hlow hpolicy⟩

/-- Settles O36: the two reads are guarded reads of `x + 1` and of `n` cells, and a fault entry changes nothing else. -/
theorem readsCheckBeforeReading : Obligations.ReadsCheckBeforeReading := fun x _ _ s =>
  ⟨fun hout => State.afterReads_outside (Nat.succ_pos x.val) (Nat.lt_succ_of_le hout),
    fun hn hout => State.afterReads_outside hn (by omega)⟩

/-! The next fetch. -/

/-- The step of a running CPU with a whole word at `pc` runs the word's instruction on the advanced state (R68, R71). -/
theorem step_running {s : State} (hmove : s.nextMove = .cpu) (hrun : s.status = .running)
    (hword : s.pc.toNat + 1 < s.cfg.memSize) : step s = exec (decodeWord s.fetchWord) s.unscheduled.begun.advanced := by
  have hrun' : s.unscheduled.status = .running := hrun
  have hbegun : cpuStep s.unscheduled = runningStep s.unscheduled.begun := by rw [cpuStep, hrun']
  have hinside : ¬ s.unscheduled.begun.cfg.memSize ≤ s.unscheduled.begun.pc.toNat := Nat.not_le.mpr (Nat.lt_of_succ_lt hword)
  have hwhole : ¬ s.unscheduled.begun.pc.toNat + 1 = s.unscheduled.begun.cfg.memSize := Nat.ne_of_lt hword
  rw [step_of_nextMove s .cpu hmove, moveStep, hbegun, runningStep, if_neg hinside, if_neg hwhole]
  rfl

/-- A store of registers to the cells from `pc` on makes `V[0]` and `V[1]` the word at `pc` (R34). -/
theorem State.fetchWord_storeBytes_regBlock (s : State) {x : Reg} (hx : 1 ≤ x.val) :
    (s.storeBytes s.pc.toNat (s.regBlock x)).fetchWord = assembleWord s.cfg.fetchOrder (s.reg 0) (s.reg 1) := by
  have hfirst : (s.storeBytes s.pc.toNat (s.regBlock x)).readByte s.pc.toNat = s.reg 0 :=
    s.readByte_storeBytes_regBlock (Fin.zero_le x) s.pc.toNat
  have hsecond : (s.storeBytes s.pc.toNat (s.regBlock x)).readByte (s.pc.toNat + 1) = s.reg 1 :=
    s.readByte_storeBytes_regBlock (j := 1) hx s.pc.toNat
  rw [State.fetchWord, State.storeBytes_pc, State.storeBytes_cfg, hfirst, hsecond]

/-- Settles O37: after the store the word at `pc` is that of `V[0]` and `V[1]`, and the next step runs it. -/
theorem storeIsSeenByTheNextFetch : Obligations.StoreIsSeenByTheNextFetch := by
  intro x p s hrun hmove hbase hx hfit hfont hp
  have hstore := exec_ldMemVx_writable (x := x) (hbase ▸ hfit) (hbase ▸ hfont)
  rw [hbase] at hstore
  have hmove' : (s.storeBytes s.pc.toNat (s.regBlock x)).nextMove = .cpu := by
    rw [State.nextMove, State.storeBytes_schedule]; exact hmove
  have hword : (s.storeBytes s.pc.toNat (s.regBlock x)).pc.toNat + 1 <
      (s.storeBytes s.pc.toNat (s.regBlock x)).cfg.memSize := by
    rw [State.storeBytes_pc, State.storeBytes_cfg]; omega
  have hafter : (s.storeBytes s.pc.toNat (s.regBlock x)).afterWord = p := by
    rw [State.afterWord, State.storeBytes_pc, State.storeBytes_cfg]; exact ((s.isAfterWord_iff p).mp hp).symm
  refine ⟨_, hstore, ?_⟩
  rw [step_running hmove' ((s.storeBytes_status _ _).trans hrun) hword, s.fetchWord_storeBytes_regBlock hx, ← hafter,
    ← s.storeBytes_schedule s.pc.toNat (s.regBlock x)]
  rfl

end Sys2Proof.Machine
end

section
/-! The decoder and the opcode table (30_encoding.md R51 to R57): a word is the one of its pattern and its operand fields, so
every word is the word of a well-formed instruction, and the decoder's answer is that instruction. -/

namespace Sys2Proof.Machine

/-! A word of a format is the format's word of its operands. -/

theorem and_F000_eq_iff (w value : Word) (op : Nibble) (hv : value.toNat = op.toNat * 4096) :
    w &&& 0xF000 = value ↔ opField w = op.toNat := by
  rw [← BitVec.toNat_inj, and_F000_toNat]
  omega

theorem opField_nField_of_and_F00F {w value : Word} {op sub : Nibble} (hv : value.toNat = op.toNat * 4096 + sub.toNat)
    (h : w &&& 0xF00F = value) : opField w = op.toNat ∧ nField w = sub := by
  have hfields : opField w * 4096 + (nField w).toNat = op.toNat * 4096 + sub.toNat := by
    rw [← and_F00F_toNat, h, hv]
  have := (nField w).isLt
  have := sub.isLt
  rw [← BitVec.toNat_inj]
  omega

theorem opField_kkField_of_and_F0FF {w value : Word} {op : Nibble} {sub : Byte}
    (hv : value.toNat = op.toNat * 4096 + sub.toNat) (h : w &&& 0xF0FF = value) :
    opField w = op.toNat ∧ kkField w = sub := by
  have hfields : opField w * 4096 + (kkField w).toNat = op.toNat * 4096 + sub.toNat := by
    rw [← and_F0FF_toNat, h, hv]
  have := (kkField w).isLt
  have := sub.isLt
  rw [← BitVec.toNat_inj]
  omega

theorem IsA.formatA_eq {w value : Word} {nnn : Addr} {op : Nibble} (h : IsA w value nnn)
    (hv : value.toNat = op.toNat * 4096) : formatA op nnn = w := by
  obtain ⟨hbits, rfl⟩ := h
  exact formatA_fields w op ((and_F000_eq_iff w value op hv).mp hbits)

theorem IsRI.formatRI_eq {w value : Word} {x : Reg} {kk : Byte} {op : Nibble} (h : IsRI w value x kk)
    (hv : value.toNat = op.toNat * 4096) : formatRI op x kk = w := by
  obtain ⟨hbits, hx, rfl⟩ := h
  obtain rfl : xField w = x := Fin.ext hx
  exact formatRI_fields w op ((and_F000_eq_iff w value op hv).mp hbits)

theorem IsRR.formatRR_eq {w value : Word} {x y : Reg} {op sub : Nibble} (h : IsRR w value x y)
    (hv : value.toNat = op.toNat * 4096 + sub.toNat) : formatRR op x y sub = w := by
  obtain ⟨hbits, hx, hy⟩ := h
  obtain rfl : xField w = x := Fin.ext hx
  obtain rfl : yField w = y := Fin.ext hy
  obtain ⟨hop, hsub⟩ := opField_nField_of_and_F00F hv hbits
  exact formatRR_fields w op sub hop hsub

theorem IsRRN.formatRR_eq {w value : Word} {x y : Reg} {n : Nibble} {op : Nibble} (h : IsRRN w value x y n)
    (hv : value.toNat = op.toNat * 4096) : formatRR op x y n = w := by
  obtain ⟨hbits, hx, hy, hn⟩ := h
  obtain rfl : xField w = x := Fin.ext hx
  obtain rfl : yField w = y := Fin.ext hy
  exact formatRR_fields w op n ((and_F000_eq_iff w value op hv).mp hbits) hn

theorem IsR.formatR_eq {w value : Word} {x : Reg} {op : Nibble} {sub : Byte} (h : IsR w value x)
    (hv : value.toNat = op.toNat * 4096 + sub.toNat) : formatR op x sub = w := by
  obtain ⟨hbits, hx⟩ := h
  obtain rfl : xField w = x := Fin.ext hx
  obtain ⟨hop, hsub⟩ := opField_kkField_of_and_F0FF hv hbits
  exact formatR_fields w op sub hop hsub

/-! Every word is the word of a well-formed instruction. -/

/-- `w` is the word of a well-formed instruction of the pattern `p`. -/
def IsWordOf (w : Word) (p : String) : Prop := ∃ i : Instr, i.wellFormed = true ∧ i.pattern = p ∧ encode i = w

theorem isWordOf_rowsWide {w : Word} : ∀ row ∈ opcodeRowsWide, row.isMatch w = true → IsWordOf w row.pattern := by
  simp only [opcodeRowsWide, List.forall_mem_cons, List.not_mem_nil, false_imp_iff, implies_true, and_true,
    OpcodeRow.isMatch, beq_iff_eq, and_FFFF]
  exact ⟨fun h => ⟨.cls, rfl, rfl, h.symm⟩, fun h => ⟨.ret, rfl, rfl, h.symm⟩,
    fun h => ⟨.jp (nnnField w), rfl, rfl, IsA.formatA_eq ⟨h, rfl⟩ rfl⟩,
    fun h => ⟨.call (nnnField w), rfl, rfl, IsA.formatA_eq ⟨h, rfl⟩ rfl⟩,
    fun h => ⟨.seImm (xField w) (kkField w), rfl, rfl, IsRI.formatRI_eq ⟨h, rfl, rfl⟩ rfl⟩,
    fun h => ⟨.sneImm (xField w) (kkField w), rfl, rfl, IsRI.formatRI_eq ⟨h, rfl, rfl⟩ rfl⟩,
    fun h => ⟨.ldImm (xField w) (kkField w), rfl, rfl, IsRI.formatRI_eq ⟨h, rfl, rfl⟩ rfl⟩,
    fun h => ⟨.addImm (xField w) (kkField w), rfl, rfl, IsRI.formatRI_eq ⟨h, rfl, rfl⟩ rfl⟩,
    fun h => ⟨.ldI (nnnField w), rfl, rfl, IsA.formatA_eq ⟨h, rfl⟩ rfl⟩,
    fun h => ⟨.jpV0 (nnnField w), rfl, rfl, IsA.formatA_eq ⟨h, rfl⟩ rfl⟩,
    fun h => ⟨.rnd (xField w) (kkField w), rfl, rfl, IsRI.formatRI_eq ⟨h, rfl, rfl⟩ rfl⟩,
    fun h => ⟨.drw (xField w) (yField w) (nField w), rfl, rfl, IsRRN.formatRR_eq ⟨h, rfl, rfl, rfl⟩ rfl⟩⟩

theorem isWordOf_rowsRR {w : Word} : ∀ row ∈ opcodeRowsRR, row.isMatch w = true → IsWordOf w row.pattern := by
  simp only [opcodeRowsRR, List.forall_mem_cons, List.not_mem_nil, false_imp_iff, implies_true, and_true,
    OpcodeRow.isMatch, beq_iff_eq]
  exact ⟨fun h => ⟨.seReg (xField w) (yField w), rfl, rfl, IsRR.formatRR_eq ⟨h, rfl, rfl⟩ rfl⟩,
    fun h => ⟨.ldReg (xField w) (yField w), rfl, rfl, IsRR.formatRR_eq ⟨h, rfl, rfl⟩ rfl⟩,
    fun h => ⟨.orReg (xField w) (yField w), rfl, rfl, IsRR.formatRR_eq ⟨h, rfl, rfl⟩ rfl⟩,
    fun h => ⟨.andReg (xField w) (yField w), rfl, rfl, IsRR.formatRR_eq ⟨h, rfl, rfl⟩ rfl⟩,
    fun h => ⟨.xorReg (xField w) (yField w), rfl, rfl, IsRR.formatRR_eq ⟨h, rfl, rfl⟩ rfl⟩,
    fun h => ⟨.addReg (xField w) (yField w), rfl, rfl, IsRR.formatRR_eq ⟨h, rfl, rfl⟩ rfl⟩,
    fun h => ⟨.subReg (xField w) (yField w), rfl, rfl, IsRR.formatRR_eq ⟨h, rfl, rfl⟩ rfl⟩,
    fun h => ⟨.shr (xField w) (yField w), rfl, rfl, IsRR.formatRR_eq ⟨h, rfl, rfl⟩ rfl⟩,
    fun h => ⟨.subnReg (xField w) (yField w), rfl, rfl, IsRR.formatRR_eq ⟨h, rfl, rfl⟩ rfl⟩,
    fun h => ⟨.shl (xField w) (yField w), rfl, rfl, IsRR.formatRR_eq ⟨h, rfl, rfl⟩ rfl⟩,
    fun h => ⟨.sneReg (xField w) (yField w), rfl, rfl, IsRR.formatRR_eq ⟨h, rfl, rfl⟩ rfl⟩⟩

theorem isWordOf_rowsR {w : Word} : ∀ row ∈ opcodeRowsR, row.isMatch w = true → IsWordOf w row.pattern := by
  simp only [opcodeRowsR, List.forall_mem_cons, List.not_mem_nil, false_imp_iff, implies_true, and_true,
    OpcodeRow.isMatch, beq_iff_eq]
  exact ⟨fun h => ⟨.skp (xField w), rfl, rfl, IsR.formatR_eq ⟨h, rfl⟩ rfl⟩,
    fun h => ⟨.sknp (xField w), rfl, rfl, IsR.formatR_eq ⟨h, rfl⟩ rfl⟩,
    fun h => ⟨.ldVxDt (xField w), rfl, rfl, IsR.formatR_eq ⟨h, rfl⟩ rfl⟩,
    fun h => ⟨.ldVxK (xField w), rfl, rfl, IsR.formatR_eq ⟨h, rfl⟩ rfl⟩,
    fun h => ⟨.ldDtVx (xField w), rfl, rfl, IsR.formatR_eq ⟨h, rfl⟩ rfl⟩,
    fun h => ⟨.ldStVx (xField w), rfl, rfl, IsR.formatR_eq ⟨h, rfl⟩ rfl⟩,
    fun h => ⟨.addI (xField w), rfl, rfl, IsR.formatR_eq ⟨h, rfl⟩ rfl⟩,
    fun h => ⟨.ldF (xField w), rfl, rfl, IsR.formatR_eq ⟨h, rfl⟩ rfl⟩,
    fun h => ⟨.ldB (xField w), rfl, rfl, IsR.formatR_eq ⟨h, rfl⟩ rfl⟩,
    fun h => ⟨.ldMemVx (xField w), rfl, rfl, IsR.formatR_eq ⟨h, rfl⟩ rfl⟩,
    fun h => ⟨.ldVxMem (xField w), rfl, rfl, IsR.formatR_eq ⟨h, rfl⟩ rfl⟩⟩

/-- A word that matches a row is the word of an instruction of the row's pattern. -/
theorem isWordOf_of_isMatch {w : Word} {row : OpcodeRow} (hrow : row ∈ opcodeTable) (h : row.isMatch w = true) :
    IsWordOf w row.pattern := by
  simp only [opcodeTable, List.mem_append] at hrow
  obtain (hwide | hrr) | hr := hrow
  · exact isWordOf_rowsWide row hwide h
  · exact isWordOf_rowsRR row hrr h
  · exact isWordOf_rowsR row hr h

/-- The encoder reaches every word: a known word by the instruction of its row, any other by `unknown`. -/
theorem exists_encode_eq (w : Word) : ∃ i : Instr, i.wellFormed = true ∧ encode i = w := by
  cases hknown : isKnownWord w with
  | false => exact ⟨.unknown w, (Bool.not_eq_true' _).mpr hknown, rfl⟩
  | true =>
    obtain ⟨row, hrow, hmatch⟩ := List.any_eq_true.mp hknown
    obtain ⟨i, hwf, -, henc⟩ := isWordOf_of_isMatch hrow hmatch
    exact ⟨i, hwf, henc⟩

/-- Settles O4: the word is that of a well-formed instruction, and the decoder reads it as that instruction. -/
theorem encodeInvertsDecode : Obligations.EncodeInvertsDecode := by
  intro w
  obtain ⟨i, hi, rfl⟩ := exists_encode_eq w
  rw [decodeWord_encode hi]
  exact ⟨hi, rfl⟩

/-! The decoder on the words of a pattern. -/

section
variable {w value : Word} {x y : Reg} {i : Instr}

theorem decodeWord_of_encode_eq (hi : i.wellFormed = true) (h : encode i = w) : decodeWord w = i :=
  h ▸ decodeWord_encode hi

theorem IsA.decodeWord_eq {nnn : Addr} {op : Nibble} (hi : i.wellFormed = true) (henc : encode i = formatA op nnn)
    (hv : value.toNat = op.toNat * 4096) (h : IsA w value nnn) : decodeWord w = i :=
  decodeWord_of_encode_eq hi (henc.trans (h.formatA_eq hv))

theorem IsRI.decodeWord_eq {kk : Byte} {op : Nibble} (hi : i.wellFormed = true) (henc : encode i = formatRI op x kk)
    (hv : value.toNat = op.toNat * 4096) (h : IsRI w value x kk) : decodeWord w = i :=
  decodeWord_of_encode_eq hi (henc.trans (h.formatRI_eq hv))

theorem IsRR.decodeWord_eq {op sub : Nibble} (hi : i.wellFormed = true) (henc : encode i = formatRR op x y sub)
    (hv : value.toNat = op.toNat * 4096 + sub.toNat) (h : IsRR w value x y) : decodeWord w = i :=
  decodeWord_of_encode_eq hi (henc.trans (h.formatRR_eq hv))

theorem IsRRN.decodeWord_eq {n op : Nibble} (hi : i.wellFormed = true) (henc : encode i = formatRR op x y n)
    (hv : value.toNat = op.toNat * 4096) (h : IsRRN w value x y n) : decodeWord w = i :=
  decodeWord_of_encode_eq hi (henc.trans (h.formatRR_eq hv))

theorem IsR.decodeWord_eq {op : Nibble} {sub : Byte} (hi : i.wellFormed = true) (henc : encode i = formatR op x sub)
    (hv : value.toNat = op.toNat * 4096 + sub.toNat) (h : IsR w value x) : decodeWord w = i :=
  decodeWord_of_encode_eq hi (henc.trans (h.formatR_eq hv))

end

/-- A row that a word matches has the pattern of the instruction the word decodes to. -/
theorem decodeWord_pattern {w : Word} {row : OpcodeRow} (hrow : row ∈ opcodeTable) (h : row.isMatch w = true) :
    (decodeWord w).pattern = row.pattern := by
  obtain ⟨i, hwf, hpattern, rfl⟩ := isWordOf_of_isMatch hrow h
  rw [decodeWord_encode hwf, hpattern]

/-- No word matches two rows: both would have the pattern of the word's instruction, and the patterns differ (R54). -/
theorem opcodeTable_disjoint :
    opcodeTable.Pairwise fun a b => ∀ w, ¬ (a.isMatch w = true ∧ b.isMatch w = true) := by
  have hpatterns : opcodeTable.Pairwise fun a b => a.pattern ≠ b.pattern := by decide
  refine hpatterns.imp_of_mem fun ha hb hne w => ?_
  rintro ⟨hmatchA, hmatchB⟩
  exact hne ((decodeWord_pattern ha hmatchA).symm.trans (decodeWord_pattern hb hmatchB))

/-- Settles O2: rows and unknown words by the pattern of the decoded instruction, operands by the format's word. -/
theorem decoderFollowsTheOpcodeTable : Obligations.DecoderFollowsTheOpcodeTable := by
  refine ⟨rfl, opcodeTable_disjoint, fun w => ⟨fun row hrow h => decodeWord_pattern hrow h, decodeWord_of_not_known,
    ?formatCls, ?formatRet, ?formatA, ?formatRI, ?formatRR, ?formatRRN, ?formatR⟩⟩
  case formatCls => exact fun h => decodeWord_of_encode_eq rfl h.symm
  case formatRet => exact fun h => decodeWord_of_encode_eq rfl h.symm
  case formatA =>
    intro nnn
    refine ⟨?_, ?_, ?_, ?_⟩ <;> exact IsA.decodeWord_eq rfl rfl rfl
  case formatRI =>
    intro x kk
    refine ⟨?_, ?_, ?_, ?_, ?_⟩ <;> exact IsRI.decodeWord_eq rfl rfl rfl
  case formatRR =>
    intro x y
    refine ⟨?_, ?_, ?_, ?_, ?_, ?_, ?_, ?_, ?_, ?_, ?_⟩ <;> exact IsRR.decodeWord_eq rfl rfl rfl
  case formatRRN => exact fun x y n => IsRRN.decodeWord_eq rfl rfl rfl
  case formatR =>
    intro x
    refine ⟨?_, ?_, ?_, ?_, ?_, ?_, ?_, ?_, ?_, ?_, ?_⟩ <;> exact IsR.decodeWord_eq rfl rfl rfl

/-- Settles O1: each word is the word of its instruction. -/
theorem decoderReadsTheSpecsWords : Obligations.DecoderReadsTheSpecsWords := by
  refine ⟨?_, ?_, ?_, ?_, ?_, ?_, ?_, ?_, ?_, ?_⟩ <;> exact decodeWord_of_encode_eq (by decide) (by decide)

/-! The skips on two registers, and the unknown word. -/

/-- A word of `op` 5 or 9 whose last nibble is not 0 is of neither pattern, 5xy0 or 9xy0 (R54, R56). -/
theorem decodeWord_unknown_of_nField_ne_zero {w : Word} (hop : opField w = 5 ∨ opField w = 9) (hn : nField w ≠ 0) :
    decodeWord w = .unknown w := by
  obtain hop | hop := hop <;> simp only [decodeWord, hop] <;> exact if_neg hn

/-- Settles O20: the words by their format, their neighbours by the last nibble, and both meanings are a skip. -/
theorem skipsOnRegisters : Obligations.SkipsOnRegisters := by
  intro x y s
  refine ⟨fun w => ⟨IsRR.decodeWord_eq rfl rfl rfl, IsRR.decodeWord_eq rfl rfl rfl⟩, fun w hbits hn => ?_, ?_, ?_⟩
  · have hop : opField w = 5 ∨ opField w = 9 := hbits.imp (and_F000_eq_iff w _ 5 rfl).mp (and_F000_eq_iff w _ 9 rfl).mp
    exact decodeWord_unknown_of_nField_ne_zero hop hn
  · exact answersSkip_of_skipIf _ _ s (s.reg x == s.reg y) rfl beq_iff_eq
  · exact answersSkip_of_skipIf _ _ s (s.reg x != s.reg y) rfl bne_iff_ne

/-- The optional diagnostic is one output more, with the address the word was fetched from (R153). -/
theorem State.signalUnknown_outputs (s : State) (w : Word) : (s.signalUnknown w).outputs =
    if s.cfg.unknownSignal = true then s.outputs ++ [.unknownOpcode s.instrAddr w] else s.outputs := by
  unfold State.signalUnknown
  split <;> rfl

/-- Settles O21: the meaning of an unknown word is the optional diagnostic, which changes outputs alone. -/
theorem unknownWordIsANoOp : Obligations.UnknownWordIsANoOp := by
  intro w a s ha
  obtain rfl := (s.isInstrAddr_iff a).mp ha
  refine ⟨_, rfl, ?_, s.signalUnknown_outputs w⟩
  rw [State.signalUnknown_eq]
  exact s.setOutputs_frame _

end Sys2Proof.Machine
end

section
/-! The step, move by move (40_cycle.md R65 to R74): which instruction a CPU step runs and how a run ends, and which moves stop.
Every instruction answers a next state, so a move stops in the three cases of `Stops` alone. -/

namespace Sys2Proof.Machine

/-! Every instruction answers. -/

/-- A guarded read answers a next state. -/
theorem State.afterReads_answers (s : State) (base n : Nat) (done : State) :
    ∃ t, s.afterReads (effectiveAddrs base n) done = .next t := by
  obtain ⟨_, e⟩ | e := s.afterReads_cases base n done <;> exact ⟨_, e⟩

/-- A guarded write answers a next state. -/
theorem State.afterWrites_answers (s : State) (base : Nat) {n : Nat} (hn : 0 < n) (done : State) :
    ∃ t, s.afterWrites (effectiveAddrs base n) done = .next t := by
  obtain ⟨_, _, -, e⟩ | ⟨-, -, e⟩ := s.afterWrites_cases base n hn done <;> exact ⟨_, e⟩

/-- The instructions that can fault answer the fault entry or go on; the meaning of any other is an update. -/
theorem exec_answers (i : Instr) (s : State) : ∃ t, exec i s = .next t := by
  cases i with
  | ret | call | skp | sknp =>
    simp only [exec, execRet, execCall, execSkp, execSknp]
    split <;> exact ⟨_, rfl⟩
  | drw | ldVxMem => exact s.afterReads_answers ..
  | ldB => exact s.afterWrites_answers _ (n := 3) (by decide) _
  | ldMemVx x => exact s.afterWrites_answers _ (Nat.succ_pos x.val) _
  | cls | jp | jpV0 | seImm | sneImm | seReg | sneReg | ldImm | addImm | ldReg | orReg | andReg | xorReg | addReg | subReg
  | shr | subnReg | shl | ldI | rnd | ldVxDt | ldVxK | ldDtVx | ldStVx | addI | ldF | unknown => exact ⟨_, rfl⟩

/-- Settles O12: an access check, a full or empty stack and a key index enter their fault as a next state. -/
theorem everyInstructionAnswersANextState : Obligations.EveryInstructionAnswersANextState :=
  exec_answers

/-! The CPU step, by what it finds (R67 to R74). -/

section
variable {s : State}

theorem runningStep_halts (hpc : s.cfg.memSize ≤ s.pc.toNat) : runningStep s = .next s.halt :=
  if_pos hpc

theorem runningStep_lastCell (hpc : s.pc.toNat + 1 = s.cfg.memSize) :
    runningStep s = .next (s.raiseAt s.pc .fetchBounds s.pc.toNat) := by
  rw [runningStep, if_neg (by omega), if_pos hpc]

/-- The CPU's step in `Running` answers: it halts, faults before the fetch, or runs an instruction, which does. -/
theorem runningStep_answers (s : State) : ∃ t, runningStep s = .next t := by
  unfold runningStep
  split
  · exact ⟨_, rfl⟩
  · split
    · exact ⟨_, rfl⟩
    · exact exec_answers _ _

theorem cpuStep_running (hs : s.status = .running) : cpuStep s = runningStep s.begun := by
  rw [cpuStep, hs]

theorem cpuStep_idles {x : Reg} (hs : s.status = .waitKey x) (hflag : s.keyFlag = false) : cpuStep s = .next s := by
  simp [cpuStep, hs, hflag]

theorem cpuStep_completes {x : Reg} (hs : s.status = .waitKey x) (hflag : s.keyFlag = true) :
    cpuStep s = .next (s.begun.completeWait x) := by
  simp [cpuStep, hs, hflag]

theorem cpuStep_halted (hs : s.status = .halted) : cpuStep s = .fault .runOverHalted := by
  rw [cpuStep, hs]

theorem cpuStep_faulted (hs : s.status = .faulted) : cpuStep s = .fault .runOverFaulted := by
  rw [cpuStep, hs]

theorem State.load_fresh {image : List Byte} (hboot : s.boot = .fresh) :
    s.load image = .next { s.copyImage Config.progBase image with boot := .loaded } := by
  rw [State.load, hboot]

theorem State.load_notEnabled {image : List Byte} (hboot : s.boot ≠ .fresh) :
    s.load image = .fault .loadNotEnabled := by
  cases h : s.boot with
  | fresh => exact absurd h hboot
  | loaded | started => rw [State.load, h]

end

/-! Which moves stop. -/

/-- The moves that have no step in `s`, each with its stop: the CPU's when the run is over (R67, R72), and a `Load` after a
`Load` or a CPU step (R172). -/
inductive Stops (s : State) : Move → Fault → Prop
  | halted (h : s.status = .halted) : Stops s .cpu .runOverHalted
  | faulted (h : s.status = .faulted) : Stops s .cpu .runOverFaulted
  | lateLoad (image : List Byte) (h : s.boot ≠ .fresh) : Stops s (.load image) .loadNotEnabled

section
variable {s : State} {m : Move}

theorem stops_runOverHalted_iff : Stops s m .runOverHalted ↔ m = .cpu ∧ s.status = .halted := by
  constructor
  · intro hstop
    cases hstop with
    | halted h => exact ⟨rfl, h⟩
  · rintro ⟨rfl, h⟩
    exact .halted h

theorem stops_runOverFaulted_iff : Stops s m .runOverFaulted ↔ m = .cpu ∧ s.status = .faulted := by
  constructor
  · intro hstop
    cases hstop with
    | faulted h => exact ⟨rfl, h⟩
  · rintro ⟨rfl, h⟩
    exact .faulted h

theorem stops_loadNotEnabled_iff : Stops s m .loadNotEnabled ↔ (∃ image, m = .load image) ∧ s.boot ≠ .fresh := by
  constructor
  · intro hstop
    cases hstop with
    | lateLoad image h => exact ⟨⟨image, rfl⟩, h⟩
  · rintro ⟨⟨image, rfl⟩, h⟩
    exact .lateLoad image h

theorem moveStep_of_stops {f : Fault} (h : Stops s m f) : moveStep m s = .fault f := by
  cases h with
  | halted h => exact cpuStep_halted h
  | faulted h => exact cpuStep_faulted h
  | lateLoad image h => exact State.load_notEnabled h

/-- When the run is over the CPU has no step (R67, R72). -/
theorem stops_cpu_of_over (h : s.status = .halted ∨ s.status = .faulted) : ∃ f, Stops s .cpu f :=
  h.elim (fun h => ⟨_, .halted h⟩) (fun h => ⟨_, .faulted h⟩)

theorem cpuStep_stops_or_answers (s : State) : (∃ f, Stops s .cpu f) ∨ ∃ t, cpuStep s = .next t := by
  cases hs : s.status with
  | running => rw [cpuStep_running hs]; exact .inr (runningStep_answers _)
  | waitKey x =>
    cases hflag : s.keyFlag with
    | false => exact .inr ⟨_, cpuStep_idles hs hflag⟩
    | true => exact .inr ⟨_, cpuStep_completes hs hflag⟩
  | halted => exact .inl ⟨_, .halted hs⟩
  | faulted => exact .inl ⟨_, .faulted hs⟩

/-- All that a move can answer: it stops as `Stops` says, or goes on. -/
theorem moveStep_stops_or_answers (m : Move) (s : State) : (∃ f, Stops s m f) ∨ ∃ t, moveStep m s = .next t := by
  cases m with
  | cpu => exact cpuStep_stops_or_answers s
  | load image =>
    by_cases hboot : s.boot = .fresh
    · exact .inr ⟨_, State.load_fresh hboot⟩
    · exact .inl ⟨_, .lateLoad image hboot⟩
  | tick | snapshot | press | release | reset => exact .inr ⟨_, rfl⟩

theorem moveStep_eq_fault_iff {f : Fault} : moveStep m s = .fault f ↔ Stops s m f := by
  refine ⟨fun h => ?_, moveStep_of_stops⟩
  obtain ⟨g, hg⟩ | ⟨t, ht⟩ := moveStep_stops_or_answers m s
  · cases h.symm.trans (moveStep_of_stops hg)
    exact hg
  · cases h.symm.trans ht

theorem moveStep_ne_refused (m : Move) (s : State) (r : Refusal) : moveStep m s ≠ .refused r := by
  intro h
  obtain ⟨f, hf⟩ | ⟨t, ht⟩ := moveStep_stops_or_answers m s
  · cases h.symm.trans (moveStep_of_stops hf)
  · cases h.symm.trans ht

end

/-- Settles O11: a step stops exactly as `Stops` says of its move, and each stop belongs to one case. -/
theorem stepStopsOnlyWhereNoStepIsEnabled : Obligations.StepStopsOnlyWhereNoStepIsEnabled := by
  intro s
  have hstop (f : Fault) : step s = .fault f ↔ Stops s.unscheduled s.nextMove f := moveStep_eq_fault_iff
  exact ⟨moveStep_ne_refused s.nextMove s.unscheduled, (hstop _).trans stops_runOverHalted_iff,
    (hstop _).trans stops_runOverFaulted_iff, (hstop _).trans stops_loadNotEnabled_iff⟩

/-- Settles O57: a CPU move stops there, and `STATUS` and `FAULT` are the CPU's alone, but for `Reset`. -/
theorem onlyResetLeavesTheEnd : Obligations.OnlyResetLeavesTheEnd := by
  intro s t hend hreset h
  have hcpu : s.nextMove ≠ .cpu := by
    intro hmove
    obtain ⟨f, hf⟩ := stops_cpu_of_over (s := s.unscheduled) hend
    cases h.symm.trans ((step_of_nextMove s .cpu hmove).trans (moveStep_of_stops hf))
  have hframe : Unchanged s.nextMove.owns s.unscheduled t := moveStep_frame h
  exact ⟨hframe .status (Move.not_owns_ofCpu hcpu hreset trivial), hframe .fault (Move.not_owns_ofCpu hcpu hreset trivial)⟩

/-! The step of the scheduled move (R65, R66). -/

theorem State.unscheduled_of_cons {s : State} {m : Move} {rest : List Move} (h : s.schedule = m :: rest) :
    s.unscheduled = { s with schedule := rest } := by
  rw [State.unscheduled, h, List.tail_cons]

theorem State.unscheduled_of_nil {s : State} (h : s.schedule = []) : s.unscheduled = s := by
  rw [State.unscheduled, h, List.tail_nil, ← h]

theorem nextMove_of_nil {s : State} (h : s.schedule = []) : s.nextMove = .cpu := by
  rw [State.nextMove, h]

/-- Settles O6: the move that is next is the head of the schedule, or the CPU's, and it is taken without the head. -/
theorem stepTakesTheScheduledMove : Obligations.StepTakesTheScheduledMove := by
  refine ⟨fun m rest s h => ?_, fun s h => ?_⟩
  · rw [step_of_nextMove s m (nextMove_of_schedule s m rest h), State.unscheduled_of_cons h]
  · rw [step_of_nextMove s .cpu (nextMove_of_nil h), State.unscheduled_of_nil h, moveStep]

/-! The step of a running CPU (R68 to R71). -/

/-- The bytes at `pc` decode to the instruction of the word that is fetched (R34, R68). -/
theorem State.decode_fetched (s : State) :
    decode s.cfg.fetchOrder [s.readByte s.pc.toNat, s.readByte (s.pc.toNat + 1)] = .ok (decodeWord s.fetchWord, []) :=
  rfl

/-- Settles O5: the instruction is that of the fetched word, and `p` the address to which the fetch advances. -/
theorem stepRunsTheDecodedInstruction : Obligations.StepRunsTheDecodedInstruction := by
  intro s i p hmove hrun hword hdecode hp
  obtain rfl := (s.isAfterWord_iff p).mp hp
  cases s.decode_fetched.symm.trans hdecode
  exact step_running hmove hrun hword

/-- The step of a running CPU, with the move off the schedule and the boot phase begun. -/
theorem step_eq_runningStep {s : State} (hmove : s.nextMove = .cpu) (hrun : s.status = .running) :
    step s = runningStep s.unscheduled.begun :=
  (step_of_nextMove s .cpu hmove).trans (cpuStep_running (s := s.unscheduled) hrun)

theorem State.unscheduled_frame (s : State) : Unchanged (· = .schedule) s s.unscheduled := fun p hp => by
  cases p with
  | schedule => exact absurd rfl hp
  | _ => rfl

theorem State.begun_frame (s : State) : Unchanged (· = .boot) s s.begun := fun p hp => by
  cases p with
  | boot => exact absurd rfl hp
  | _ => rfl

theorem State.halt_frame (s : State) : Unchanged (· = .status) s s.halt := fun p hp => by
  cases p with
  | status => exact absurd rfl hp
  | _ => rfl

theorem State.raiseAt_frame (s : State) (a : Word) (cause : FaultCause) (info : Nat) :
    Unchanged Part.ofFaultEntry s (s.raiseAt a cause info) := fun p hp => by
  cases p with
  | fault => exact absurd (.inl rfl) hp
  | status => exact absurd (.inr rfl) hp
  | _ => rfl

/-- Before it fetches, a CPU step has touched the model's own fields alone (log 1, log 14). -/
theorem State.unscheduled_begun_frame (s : State) :
    Unchanged (fun p => p = .boot ∨ p = .schedule) s s.unscheduled.begun :=
  (s.unscheduled_frame.mono fun _ => .inr).trans (s.unscheduled.begun_frame.mono fun _ => .inl)

/-- Settles O7: the step is `State.halt` before any fetch. -/
theorem cpuHaltsWhenPcLeavesMemory : Obligations.CpuHaltsWhenPcLeavesMemory := by
  intro s hmove hrun hpc
  refine ⟨s.unscheduled.begun.halt, ?_, rfl, ?_⟩
  · rw [step_eq_runningStep hmove hrun]
    exact runningStep_halts (s := s.unscheduled.begun) hpc
  · exact (s.unscheduled_begun_frame.mono fun _ => .inr).trans ((State.halt_frame _).mono fun _ => .inl)

/-- Settles O8: the step is the fault entry for the address in `pc`, before any fetch. -/
theorem fetchAtTheLastCellFaults : Obligations.FetchAtTheLastCellFaults := by
  intro s hmove hrun hpc
  refine ⟨s.unscheduled.begun.raiseAt s.pc .fetchBounds s.pc.toNat, ?_, rfl, by simp, ?_⟩
  · rw [step_eq_runningStep hmove hrun]
    exact runningStep_lastCell (s := s.unscheduled.begun) hpc
  · refine (s.unscheduled_begun_frame.mono fun _ => .inr ∘ .inr).trans ((State.raiseAt_frame _ _ _ _).mono ?_)
    rintro _ (rfl | rfl)
    · exact .inr (.inl rfl)
    · exact .inl rfl

/-! The CPU with no enabled step (R67, R72, R74). -/

/-- Settles O9: the two ends stop the CPU's move, and a held CPU answers the state without the move. -/
theorem cpuWithNoEnabledStep : Obligations.CpuWithNoEnabledStep := by
  refine ⟨fun s hmove hs => ?_, fun s hmove hs => ?_, fun s x hmove hs hflag => ?_⟩
  · rw [step_of_nextMove s .cpu hmove]; exact moveStep_of_stops (.halted hs)
  · rw [step_of_nextMove s .cpu hmove]; exact moveStep_of_stops (.faulted hs)
  · refine ⟨s.unscheduled, ?_, s.unscheduled_frame⟩
    rw [step_of_nextMove s .cpu hmove]; exact cpuStep_idles (s := s.unscheduled) hs hflag

end Sys2Proof.Machine
end

section
/-! Control transfer (41_control_flow.md R80 to R88): a jump, indexed or not, is `State.jump`, a call is a push and a jump, and
a return is a pop. A return after a call is then read off what the call and the return each change. -/

namespace Sys2Proof.Machine

/-! Jumps. -/

theorem absoluteTarget_toNat (nnn : Addr) : (absoluteTarget nnn).toNat = nnn.toNat := by
  unfold absoluteTarget; bv_omega

/-- The sum of a 12-bit address and a byte is below 2 ^ 16, so 16 bits do not cut it (R87). -/
theorem indexedTarget_toNat (nnn : Addr) (v0 : Byte) : (indexedTarget nnn v0).toNat = nnn.toNat + v0.toNat := by
  unfold indexedTarget; bv_omega

/-- Settles O13: the word by its format, and the meaning is a jump. -/
theorem jumpSetsPc : Obligations.JumpSetsPc := by
  intro nnn s
  exact ⟨fun w => IsA.decodeWord_eq rfl rfl rfl, _, rfl, absoluteTarget_toNat nnn, s.jump_frame _⟩

/-- Settles O14: the meaning is a jump to the sum, which `wrapPc` cuts to `PCLEN` bits and at 16 bits keeps. -/
theorem indexedJumpAddsV0 : Obligations.IndexedJumpAddsV0 := by
  intro nnn s
  refine ⟨_, rfl, ?_, fun hwidth => ?_, s.jump_frame _⟩
  · rw [State.jump_pc, wrapPc_toNat, indexedTarget_toNat]
  · rw [State.jump_pc, wrapPc_sixteen _ _ hwidth, indexedTarget_toNat]

/-! Calls and returns. -/

section
variable {s t : State}

theorem exec_call_of_push (nnn : Addr) (h : s.push = some t) :
    exec (.call nnn) s = .next (t.jump (absoluteTarget nnn)) := by
  rw [exec, execCall, h]

theorem exec_call_full (nnn : Addr) (h : s.sp.val = 16) : exec (.call nnn) s = .next (s.raise .stackOverflow 0) := by
  rw [exec, execCall, s.push_full h]

theorem exec_ret_empty (h : s.sp.val = 0) : exec .ret s = .next (s.raise .stackUnderflow 0) := by
  rw [exec, execRet, s.pop_empty h]

/-- With room, a push adds one entry, and the new top holds `pc` (R82). -/
theorem State.push_adds_pc (h : s.sp.val < 16) :
    ∃ t, s.push = some t ∧ t.sp.val = s.sp.val + 1 ∧ t.slot ⟨s.sp.val, h⟩ = s.pc :=
  ⟨_, s.push_eq h, rfl, by simp [State.slot, Vector.get_eq_getElem]⟩

/-- A part that has changed and come back may be left out of a frame. -/
theorem Unchanged.narrow {touched touched' : Part → Prop} (h : Unchanged touched s t)
    (hback : ∀ p, touched p → touched' p ∨ p.same s t) : Unchanged touched' s t := fun p hp => by
  by_cases htouched : touched p
  · exact (hback p htouched).resolve_left hp
  · exact h p htouched

end

/-- Settles O15: a push, which changes `sp` and the new top slot alone, and then a jump. -/
theorem callPushesTheReturnAddress : Obligations.CallPushesTheReturnAddress := by
  intro nnn s h
  obtain ⟨t, hpush, hsp, htop⟩ := State.push_adds_pc h
  refine ⟨_, exec_call_of_push nnn hpush, absoluteTarget_toNat nnn, hsp, htop, ?_⟩
  refine ((State.push_frame hpush).mono ?_).trans ((t.jump_frame _).mono fun _ => .inl)
  rintro _ (rfl | ⟨j, hj, rfl⟩)
  · exact .inr (.inl rfl)
  · obtain rfl : j = ⟨s.sp.val, h⟩ := Fin.ext hj
    exact .inr (.inr rfl)

/-- Settles O17: a push on a full stack and a pop of an empty one answer nothing, and the meanings enter their faults. -/
theorem stackLimitsFault : Obligations.StackLimitsFault := by
  intro s
  exact ⟨fun hfull nnn => ⟨_, exec_call_full nnn hfull, s.raise_faultEntered _ _⟩,
    fun hempty => ⟨_, exec_ret_empty hempty, s.raise_faultEntered _ _⟩⟩

/-- Settles O18: the return takes `pc` from the slot that the call filled and `sp` back by one, so that of what the two change
the slot alone differs from the state before. -/
theorem callThenReturnComesBack : Obligations.CallThenReturnComesBack := by
  intro nnn s h
  obtain ⟨t, hcall, -, hpushed, htop, hcallFrame⟩ := callPushesTheReturnAddress nnn s h
  refine ⟨t, hcall, fun w => ?_⟩
  obtain ⟨u, hret, hpopped, hless, hretFrame⟩ := returnPopsTheStack (t.jump w) (by rw [State.jump_sp]; omega)
  refine ⟨u, hret, ?_⟩
  simp only [State.jump_slot, State.jump_sp, hpushed, Nat.add_sub_cancel] at hpopped hless
  have hpc : u.pc = s.pc := hpopped.trans htop
  have hsp : u.sp = s.sp := Fin.ext hless
  have hframe : Unchanged (fun p => p = .pc ∨ p = .sp ∨ p = .slot ⟨s.sp.val, h⟩) s u :=
    (hcallFrame.trans ((t.jump_frame w).mono fun _ => .inl)).trans (hretFrame.mono fun _ => Or.imp_right .inl)
  refine hframe.narrow ?_
  rintro _ (rfl | rfl | rfl)
  · exact .inr hpc
  · exact .inr hsp
  · exact .inl rfl

/-! The skips on an immediate. -/

/-- Settles O19: the words by their format, and both meanings are a skip. -/
theorem skipsOnImmediate : Obligations.SkipsOnImmediate := by
  intro x kk s
  refine ⟨fun w => ⟨IsRI.decodeWord_eq rfl rfl rfl, IsRI.decodeWord_eq rfl rfl rfl⟩, ?_, ?_⟩
  · exact answersSkip_of_skipIf _ _ s (s.reg x == kk) rfl beq_iff_eq
  · exact answersSkip_of_skipIf _ _ s (s.reg x != kk) rfl bne_iff_ne

end Sys2Proof.Machine
end

section
/-! Register loads, arithmetic, logic, shifts and the random byte (42_load_alu.md R90 to R103). An instruction without a flag is
a register write. One with a flag is `State.writeSampled` or `State.flagAndResult`, and one lemma for each order of the two
assignments says what it answers (R103): the result last, the flag last, or the result from the registers read again. -/

namespace Sys2Proof.Machine

/-! The meanings that set a flag, by the operation that each calls. -/

theorem exec_addReg (x y : Reg) (s : State) :
    exec (.addReg x y) s = .next (s.writeSampled x (carryOut (s.reg x) (s.reg y)) (s.reg x + s.reg y)) := rfl

theorem exec_subReg (x y : Reg) (s : State) :
    exec (.subReg x y) s = .next (s.flagAndResult x y strictlyAbove fun a b => a - b) := rfl

theorem exec_subnReg (x y : Reg) (s : State) :
    exec (.subnReg x y) s = .next (s.flagAndResult x y (fun a b => strictlyAbove b a) fun a b => b - a) := rfl

theorem exec_shr (x y : Reg) (s : State) :
    exec (.shr x y) s = .next (s.flagAndResult x y (fun a _ => bottomBit a) fun a _ => a >>> 1) := rfl

theorem exec_shl (x y : Reg) (s : State) :
    exec (.shl x y) s = .next (s.flagAndResult x y (fun a _ => topBit a) fun a _ => a <<< 1) := rfl

/-! The flags as numbers (R96 to R100). -/

theorem flagByte_toNat (b : Bool) : (flagByte b).toNat = b.toNat := by
  cases b <;> rfl

theorem flagByte_decide_toNat (p : Prop) [Decidable p] : (flagByte (decide p)).toNat = if p then 1 else 0 :=
  (flagByte_toNat _).trans (Bool.cond_decide p 1 0)

/-- The bit that a right shift drops is the remainder of the halving (R98). -/
theorem flagByte_bottomBit_toNat (a : Byte) : (flagByte (bottomBit a)).toNat = a.toNat % 2 := by
  rw [flagByte_toNat, bottomBit, BitVec.getLsbD, Nat.toNat_testBit, pow_zero, Nat.div_one]

/-- The bit that a left shift drops says whether the byte is at least 128 (R100). -/
theorem flagByte_topBit_toNat (a : Byte) : (flagByte (topBit a)).toNat = a.toNat / 128 := by
  have hlt : a.toNat < 256 := a.isLt
  rw [flagByte_toNat, topBit, BitVec.getLsbD, Nat.toNat_testBit]
  omega

/-! What an instruction with a flag answers, by the order of its two assignments (R103). -/

section
variable {i : Instr} {x y : Reg} {s : State} {flag : Bool} {result : Byte} {f : Byte → Byte → Bool} {r : Byte → Byte → Byte}

/-- A flag and a result known before either write: the result is last, unless `flag_last` orders the two for one register. -/
theorem answersResultLast_of_writeSampled (hi : exec i s = .next (s.writeSampled x flag result))
    (h : s.cfg.vfOperand ≠ .flagLast ∨ x ≠ vF) : AnswersResultLast i x flag result s := by
  refine ⟨_, hi, ?_, fun hx => ?_, s.writeSampled_frame x flag result⟩
  · exact (s.writeSampled_reg x flag result x).trans (if_pos ⟨rfl, fun hx => h.resolve_right (not_not_intro hx)⟩)
  · rw [State.writeSampled_reg, if_neg fun e => hx e.1.symm, if_pos rfl, flagByte]

/-- Under `flag_last` the flag is what `VF` ends with. -/
theorem answersFlagLast_of_writeSampled (hi : exec i s = .next (s.writeSampled x flag result))
    (hp : s.cfg.vfOperand = .flagLast) : AnswersFlagLast i x flag result s := by
  refine ⟨_, hi, ?_, fun hx => ?_, s.writeSampled_frame x flag result⟩
  · rw [State.writeSampled_reg, if_neg fun e => e.2 e.1.symm hp, if_pos rfl, flagByte]
  · exact (s.writeSampled_reg x flag result x).trans (if_pos ⟨rfl, fun e => absurd e hx⟩)

/-- Under `flag_last` two assignments sample their operands before either. -/
theorem answersFlagLast_of_flagAndResult (hi : exec i s = .next (s.flagAndResult x y f r))
    (hp : s.cfg.vfOperand = .flagLast) : AnswersFlagLast i x (f (s.reg x) (s.reg y)) (r (s.reg x) (s.reg y)) s := by
  rw [s.flagAndResult_sampled x y f r (by simp [hp])] at hi
  exact answersFlagLast_of_writeSampled hi hp

/-- Two assignments put flag and result of the sampled operands, where the flag's write changes no operand of the result. -/
theorem answersResultLast_of_flagAndResult (hi : exec i s = .next (s.flagAndResult x y f r))
    (h : s.cfg.vfOperand = .sampleFlagResult ∨ (x ≠ vF ∧ (y ≠ vF ∨ ∀ a b b', r a b = r a b'))) :
    AnswersResultLast i x (f (s.reg x) (s.reg y)) (r (s.reg x) (s.reg y)) s := by
  obtain ⟨hresult, hflag⟩ := s.flagAndResult_reg x y f r h
  exact ⟨_, hi, hresult, hflag, s.flagAndResult_frame x y f r⟩

/-- Under `sequential_text` the result is computed from the registers as they are after the flag's write. -/
theorem answersResultLast_of_reread {reread : Bool → Reg → Byte}
    (hreread : ∀ flag r, reread flag r = if r = vF then (if flag = true then 1 else 0) else s.reg r)
    (hp : s.cfg.vfOperand = .sequentialText) (hi : exec i s = .next (s.flagAndResult x y f r))
    (hflag : flag = f (s.reg x) (s.reg y)) : AnswersResultLast i x flag (r (reread flag x) (reread flag y)) s := by
  subst hflag
  have hread (z : Reg) : (s.setReg vF (flagByte (f (s.reg x) (s.reg y)))).reg z = reread (f (s.reg x) (s.reg y)) z :=
    (s.reg_setReg vF z _).trans (hreread _ z).symm
  refine ⟨_, hi, ?_, fun hx => ?_, s.flagAndResult_frame x y f r⟩
  · rw [s.flagAndResult_sequential x y f r hp, State.reg_setReg_same, hread, hread]
  · rw [s.flagAndResult_sequential x y f r hp, State.reg_setReg_other _ _ _ _ hx.symm, State.reg_setReg_same, flagByte]

/-- The same answer with its result and its flag as numbers. -/
theorem AnswersResultLast.toNat {n m : Nat} (h : AnswersResultLast i x flag result s) (hresult : result.toNat = n)
    (hflag : (flagByte flag).toNat = m) :
    ∃ t, exec i s = .next t ∧ (t.reg x).toNat = n ∧ (x ≠ vF → (t.reg vF).toNat = m) ∧
      Unchanged (fun p => p = .reg x ∨ p = .reg vF) s t := by
  obtain ⟨t, ht, hreg, hvF, hframe⟩ := h
  exact ⟨t, ht, hreg ▸ hresult, fun hx => hvF hx ▸ hflag, hframe⟩

end

/-! Arithmetic and shifts with a flag. -/

/-- Settles O26: both are two assignments whose flag is the strict comparison of the sampled operands. -/
theorem subtractionsSetTheStrictFlag : Obligations.SubtractionsSetTheStrictFlag := by
  intro x y s h
  have hsub := answersResultLast_of_flagAndResult (exec_subReg x y s) (h.imp_right (And.imp_right .inl))
  have hsubn := answersResultLast_of_flagAndResult (exec_subnReg x y s) (h.imp_right (And.imp_right .inl))
  refine ⟨hsub.toNat ?_ (flagByte_decide_toNat _), hsubn.toNat ?_ (flagByte_decide_toNat _)⟩
  · bv_omega
  · bv_omega

/-- Settles O27: both are two assignments, and neither result reads `V[y]`, so that `y` may be `VF`. -/
theorem shiftsSetTheBitShiftedOut : Obligations.ShiftsSetTheBitShiftedOut := by
  intro x y s h
  have hshr := answersResultLast_of_flagAndResult (exec_shr x y s) (h.imp_right fun hx => ⟨hx, .inr fun _ _ _ => rfl⟩)
  have hshl := answersResultLast_of_flagAndResult (exec_shl x y s) (h.imp_right fun hx => ⟨hx, .inr fun _ _ _ => rfl⟩)
  refine ⟨hshr.toNat ?_ (flagByte_bottomBit_toNat _), hshl.toNat ?_ (flagByte_topBit_toNat _)⟩
  · rw [BitVec.toNat_ushiftRight, Nat.shiftRight_eq_div_pow, pow_one]
  · rw [BitVec.toNat_shiftLeft, Nat.shiftLeft_eq, pow_one]

/-- Settles O28: `8xy4` samples its sum and its carry under both policies, the others sample or read again. -/
theorem vfOperandAlternatives : Obligations.VfOperandAlternatives := by
  intro x y s
  refine ⟨fun hp => ?_, fun hp reread hreread => ?_⟩
  · exact ⟨answersFlagLast_of_writeSampled (exec_addReg x y s) hp, answersFlagLast_of_flagAndResult (exec_subReg x y s) hp,
      answersFlagLast_of_flagAndResult (exec_subnReg x y s) hp, answersFlagLast_of_flagAndResult (exec_shr x y s) hp,
      answersFlagLast_of_flagAndResult (exec_shl x y s) hp⟩
  · exact ⟨answersResultLast_of_writeSampled (exec_addReg x y s) (.inl (by simp [hp])),
      fun _ => answersResultLast_of_reread hreread hp (exec_subReg x y s),
      fun _ => answersResultLast_of_reread hreread hp (exec_subnReg x y s),
      fun _ => answersResultLast_of_reread hreread hp (exec_shr x y s),
      fun _ => answersResultLast_of_reread hreread hp (exec_shl x y s)⟩

/-- Settles O25: the sum and the carry are known before either is written, and the sum is written last. -/
theorem addSetsTheCarry : Obligations.AddSetsTheCarry := by
  intro x y s h
  exact (answersResultLast_of_writeSampled (exec_addReg x y s) h).toNat (BitVec.toNat_add _ _) (flagByte_decide_toNat _)

/-! Register writes without a flag. -/

/-- Settles O22: the words by their format, and both meanings are a register write. -/
theorem loadsCopyIntoARegister : Obligations.LoadsCopyIntoARegister := by
  intro x y kk s
  exact ⟨fun w => ⟨IsRI.decodeWord_eq rfl rfl rfl, IsRR.decodeWord_eq rfl rfl rfl⟩,
    ⟨_, rfl, s.reg_setReg_same x kk, s.setReg_frame x kk⟩,
    ⟨_, rfl, s.reg_setReg_same x (s.reg y), s.setReg_frame x (s.reg y)⟩⟩

/-- Settles O23: the meaning is a register write of the sum of two bytes. -/
theorem addImmediateWrapsWithoutFlag : Obligations.AddImmediateWrapsWithoutFlag := by
  intro x kk s
  refine ⟨_, rfl, ?_, s.setReg_frame x (s.reg x + kk)⟩
  rw [State.reg_setReg_same, BitVec.toNat_add]

/-- Settles O24: each meaning is a register write of the bitwise combination. -/
theorem logicActsBitByBit : Obligations.LogicActsBitByBit := by
  intro x y s
  refine ⟨⟨_, rfl, s.setReg_frame x (s.reg x ||| s.reg y), fun k => ?_⟩,
    ⟨_, rfl, s.setReg_frame x (s.reg x &&& s.reg y), fun k => ?_⟩,
    ⟨_, rfl, s.setReg_frame x (s.reg x ^^^ s.reg y), fun k => ?_⟩⟩
  · rw [State.reg_setReg_same, BitVec.getLsbD_or]
  · rw [State.reg_setReg_same, BitVec.getLsbD_and]
  · rw [State.reg_setReg_same, BitVec.getLsbD_xor]

/-- Settles O29: the meaning is a draw and then a register write of the drawn byte under the mask. -/
theorem randomByteIsMasked : Obligations.RandomByteIsMasked := by
  intro x kk s
  have hreg : (s.drawByte.2.setReg x (s.drawByte.1 &&& kk)).reg x = Config.freeByte s.draws &&& kk :=
    s.drawByte.2.reg_setReg_same x _
  refine ⟨_, rfl, hreg, ?_, rfl, ?_⟩
  · rw [hreg, BitVec.and_assoc, BitVec.and_not_self]
    exact BitVec.and_zero
  · exact (s.drawByte_frame.mono fun _ => .inr).trans ((s.drawByte.2.setReg_frame x _).mono fun _ => .inl)

end Sys2Proof.Machine
end

section
/-! The address register (43_index_memory.md R110 to R112): each of its three instructions writes `I` alone, with the address
in the word, a sum modulo 4096, or a product that 12 bits hold. -/

namespace Sys2Proof.Machine

/-- Settles O30: the word by its format, and the meaning is a write of `I`. -/
theorem loadIndexTakesTheAddress : Obligations.LoadIndexTakesTheAddress := by
  intro nnn s
  exact ⟨fun w => IsA.decodeWord_eq rfl rfl rfl, _, rfl, rfl, s.setIndex_frame nnn⟩

theorem advancedIndex_toNat (i : Addr) (v : Byte) : (advancedIndex i v).toNat = (i.toNat + v.toNat) % 4096 :=
  (BitVec.toNat_ofNat _ _).trans (Nat.mod_mod _ _)

/-- The product is at most 255 * 5, so 12 bits do not cut it (R112). -/
theorem glyphAddr_toNat (v : Byte) : (glyphAddr v).toNat = v.toNat * 5 := by
  have hlt : v.toNat < 256 := v.isLt
  exact (BitVec.toNat_ofNat _ _).trans (Nat.mod_eq_of_lt (by omega))

/-- Settles O31: both meanings are a write of `I`, with the sum and with the product. -/
theorem indexArithmetic : Obligations.IndexArithmetic := by
  intro x s
  exact ⟨⟨_, rfl, advancedIndex_toNat s.i (s.reg x), s.setIndex_frame _⟩,
    ⟨_, rfl, glyphAddr_toNat (s.reg x), s.setIndex_frame _⟩⟩

end Sys2Proof.Machine
end

section
/-! The display (44_display.md R120 to R123): a draw toggles the pixels under the sprite, so a second one undoes it, and it sees
its coordinates only modulo the size of the screen. -/

namespace Sys2Proof.Machine

@[simp] theorem pixelOf_clearedFramebuffer (r : Fin 32) (c : Fin 64) : pixelOf clearedFramebuffer r c = false := by
  simp [pixelOf, clearedFramebuffer, Vector.get_eq_getElem]

/-- Settles O38: the new framebuffer is the cleared one, and writing the framebuffer touches pixels alone. -/
theorem clearResetsEveryPixel : Obligations.ClearResetsEveryPixel := fun s =>
  ⟨_, rfl, pixelOf_clearedFramebuffer, s.setFb_frame _⟩

/-- `Dxyn` where its sprite bytes exist; with no rows there is nothing to check (R121). -/
theorem exec_drw_inside {x y : Reg} {n : Nibble} {s : State}
    (hfit : n.toNat = 0 ∨ s.i.toNat + (n.toNat - 1) < s.cfg.memSize) : exec (.drw x y n) s = .next (s.drawn x y n) := by
  have hinside : ¬ (s.cfg.memSize < s.i.toNat + n.toNat ∧ 0 < n.toNat) := by omega
  exact (s.afterReads_eq _ _ _).trans (if_neg hinside)

/-- A sprite that `Dxyn` draws has no more rows than the screen, so no two of its rows meet. -/
theorem State.sprite_length_le (s : State) (n : Nibble) : (s.sprite n).length ≤ 32 := by
  have hlt : n.toNat < 16 := n.isLt
  rw [s.sprite_length]
  omega

/-- Settles O39: the closed description of the bit loop is the law of `drawSprite`, and `VF` is its flag. -/
theorem drawXorsTheSprite : Obligations.DrawXorsTheSprite := by
  intro x y n s hfit
  have hlen := s.sprite_length_le n
  have hflag : (s.drawn x y n).reg vF = flagByte (drawSprite (s.reg x) (s.reg y) (s.sprite n) s.fb).erased :=
    (s.drawn_reg x y n vF).trans (if_pos rfl)
  exact ⟨_, exec_drw_inside hfit, pixelOf_drawSprite _ _ _ _ hlen,
    hflag.trans (if_congr (erased_drawSprite _ _ _ _ hlen) rfl rfl), s.drawn_frame x y n⟩

/-- Settles O40: the second draw XORs with the same mask, and the pixels it erases are those of the mask that were clear. -/
theorem drawTwiceRestores : Obligations.DrawTwiceRestores := by
  intro px py sprite fb hrows
  have hlen : sprite.length ≤ 32 := by omega
  refine ⟨fun r c => ?_, ?_⟩
  · rw [pixelOf_drawSprite _ _ _ _ hlen, pixelOf_drawSprite _ _ _ _ hlen, Bool.xor_assoc, Bool.xor_self, Bool.xor_false]
  · have hturnedOn (r : Fin 32) (c : Fin 64) :
        (underSprite px py sprite r c = true ∧ pixelOf (drawSprite px py sprite fb).fb r c = true) ↔
          (pixelOf fb r c = false ∧ pixelOf (drawSprite px py sprite fb).fb r c = true) := by
      rw [pixelOf_drawSprite _ _ _ _ hlen]
      cases pixelOf fb r c <;> simp
    rw [erased_drawSprite _ _ _ _ hlen]
    exact exists_congr fun r => exists_congr (hturnedOn r)

/-! Coordinates that agree modulo the size of the screen, bit by bit, row by row and for the whole sprite (R123). -/

section Wrap
variable {px qx row row' : Nat}

theorem drawBit_congr (hx : px ≡ qx [MOD 64]) (hrow : row ≡ row' [MOD 32]) : drawBit px row = drawBit qx row' := by
  funext b d k
  have hr : Fin.ofNat 32 row = Fin.ofNat 32 row' := Fin.ext hrow
  have hc : Fin.ofNat 64 (px + k) = Fin.ofNat 64 (qx + k) := Fin.ext (hx.add_right k)
  simp only [drawBit, hr, hc]

theorem drawRow_congr (hx : px ≡ qx [MOD 64]) (hrow : row ≡ row' [MOD 32]) : drawRow px row = drawRow qx row' := by
  funext b d
  simp only [drawRow, drawBit_congr hx hrow]

theorem drawRows_congr (hx : px ≡ qx [MOD 64]) (hrow : row ≡ row' [MOD 32]) (sprite : List Byte) (d : Canvas) :
    drawRows px row sprite d = drawRows qx row' sprite d := by
  induction sprite generalizing row row' d with
  | nil => rfl
  | cons b bs ih =>
    simp only [drawRows, drawRow_congr hx hrow]
    exact ih (hrow.add_right 1) _

end Wrap

/-- Settles O41: the rows of a sprite are drawn alike from coordinates that agree modulo the size of the screen. -/
theorem drawCoordinatesWrap : Obligations.DrawCoordinatesWrap := fun _ _ _ _ sprite fb hx hy =>
  drawRows_congr hx hy sprite ⟨fb, false⟩

end Sys2Proof.Machine
end

section
/-! Keys and timers (45_keys_timers.md R130 to R137, 60_exceptions.md R148, R149): the skips on a key by what the latch reads,
the transfers of a timer, and the wait of `Fx0A`, which a press alone ends. -/

namespace Sys2Proof.Machine

/-! The wait for a key (R133, R134, R137). -/

section
variable {s t : State} {x : Reg}

@[simp] theorem State.completeWait_reg_same (s : State) (x : Reg) : (s.completeWait x).reg x = s.keyDelivered.1 :=
  s.keyDelivered.2.reg_setReg_same x s.keyDelivered.1

@[simp] theorem State.completeWait_draws (s : State) (x : Reg) : (s.completeWait x).draws = s.keyDelivered.2.draws := rfl

/-- The completion of a wait changes its register, `STATUS`, `KEYFLAG` and the count of draws alone (R134). -/
theorem State.completeWait_frame (s : State) (x : Reg) :
    Unchanged (fun p => p = .reg x ∨ p = .status ∨ p = .keyFlag ∨ p = .draws) s (s.completeWait x) := fun p hp => by
  obtain ⟨n, b, e⟩ := s.completeWait_eq x
  rw [e]
  cases p with
  | reg r => exact State.reg_setReg_other { s with draws := n } x r b fun hr => hp (.inl (hr ▸ rfl))
  | status | keyFlag | draws => simp at hp
  | _ => rfl

/-- With a press since the wait began, the CPU's step is the completion of the wait. -/
theorem step_completes (hmove : s.nextMove = .cpu) (hs : s.status = .waitKey x) (hflag : s.keyFlag = true) :
    step s = .next (s.unscheduled.begun.completeWait x) :=
  (step_of_nextMove s .cpu hmove).trans (cpuStep_completes (s := s.unscheduled) hs hflag)

/-- A wait with no press goes on through every move but a `Press` or a `Reset`: the CPU idles, and no other agent owns
`STATUS` or raises `KEYFLAG`. -/
theorem moveStep_keeps_wait {m : Move} (hs : s.status = .waitKey x) (hflag : s.keyFlag = false)
    (hpress : ∀ k, m ≠ .press k) (hreset : m ≠ .reset) (h : moveStep m s = .next t) :
    t.status = .waitKey x ∧ t.keyFlag = false := by
  by_cases hcpu : m = .cpu
  · subst hcpu
    cases (cpuStep_idles hs hflag).symm.trans h
    exact ⟨hs, hflag⟩
  · have hstatus : t.status = s.status := moveStep_frame h .status (Move.not_owns_ofCpu hcpu hreset trivial)
    have hraise : ¬ t.keyFlag = true := mt (moveStep_raises_keyFlag h hpress) (by simp [hflag])
    exact ⟨hstatus.trans hs, eq_false_of_ne_true hraise⟩

end

/-- Settles O10: the step is the completion of the wait, and what it delivers goes by the keys that are held. -/
theorem waitCompletesWithTheLowestHeldKey : Obligations.WaitCompletesWithTheLowestHeldKey := by
  intro s x hmove hs hflag
  refine ⟨_, step_completes hmove hs hflag, rfl, rfl, fun k hk hlow => ?_, fun hnone => ?_, ?_⟩
  · have hdelivered := s.unscheduled.begun.keyDelivered_held k hk hlow
    have hbyte : (BitVec.ofNat 8 k.val).toNat = k.val := Nat.mod_eq_of_lt (by omega)
    rw [State.completeWait_reg_same, State.completeWait_draws, hdelivered]
    exact ⟨hbyte, rfl⟩
  · have hdelivered := s.unscheduled.begun.keyDelivered_none hnone
    rw [State.completeWait_reg_same, State.completeWait_draws, hdelivered]
    exact ⟨rfl, rfl⟩
  · refine (s.unscheduled_begun_frame.mono fun _ => .inr ∘ .inr ∘ .inr ∘ .inr).trans
      ((State.completeWait_frame _ x).mono ?_)
    rintro _ (rfl | rfl | rfl | rfl) <;> simp

/-- Settles O45: the meaning is the beginning of a wait, which touches two parts alone. -/
theorem waitBegins : Obligations.WaitBegins := fun x s =>
  ⟨_, rfl, rfl, rfl, (s.beginWait_frame x).mono fun _ => Or.symm⟩

/-- Settles O47: a press and a release each write their key and leave the schedule, and a wait goes on through the other moves. -/
theorem pressAndReleaseSetTheLatch : Obligations.PressAndReleaseSetTheLatch := by
  intro s k rest
  refine ⟨fun h => ?_, fun h => ?_, fun x t hs hflag hpress hreset hstep => ?_⟩
  · have hschedule : (s.unscheduled.press k).schedule = rest := congrArg List.tail h
    have hheld : (s.unscheduled.press k).held k = true := (State.press_held _ k k).trans (if_pos rfl)
    refine ⟨_, step_of_nextMove s _ (nextMove_of_schedule s _ rest h), hheld, rfl, hschedule, ?_⟩
    exact (s.unscheduled_frame.mono fun _ => .inr ∘ .inr).trans
      ((s.unscheduled.press_frame k).mono fun _ => Or.imp_right .inl)
  · have hschedule : (s.unscheduled.release k).schedule = rest := congrArg List.tail h
    have hheld : (s.unscheduled.release k).held k = false := (State.release_held _ k k).trans (if_pos rfl)
    refine ⟨_, step_of_nextMove s _ (nextMove_of_schedule s _ rest h), hheld, hschedule, ?_⟩
    exact (s.unscheduled_frame.mono fun _ => .inr).trans ((s.unscheduled.release_frame k).mono fun _ => .inl)
  · exact moveStep_keeps_wait (s := s.unscheduled) hs hflag hpress hreset hstep

/-! The skips on a key (R130, R131). -/

section
variable {s : State} {x : Reg} {pressed : Bool} {condition : Prop}

/-- `Ex9E` is a skip where the latch reads that the key is held. -/
theorem answersSkip_skp (hread : s.keyReading (s.reg x) = some pressed) (hcond : pressed = true ↔ condition) :
    AnswersSkip (.skp x) condition s := by
  refine answersSkip_of_skipIf _ _ s pressed ?_ hcond
  rw [exec, execSkp, hread]

/-- `ExA1` is a skip where the latch reads that the key is not held. -/
theorem answersSkip_sknp (hread : s.keyReading (s.reg x) = some pressed) (hcond : pressed = false ↔ condition) :
    AnswersSkip (.sknp x) condition s := by
  refine answersSkip_of_skipIf _ _ s (!pressed) ?_ ((iff_of_eq (Bool.not_eq_true' pressed)).trans hcond)
  rw [exec, execSknp, hread]

theorem exec_skp_faults (hread : s.keyReading (s.reg x) = none) :
    exec (.skp x) s = .next (s.raise .keyIndex (s.reg x).toNat) := by
  rw [exec, execSkp, hread]

theorem exec_sknp_faults (hread : s.keyReading (s.reg x) = none) :
    exec (.sknp x) s = .next (s.raise .keyIndex (s.reg x).toNat) := by
  rw [exec, execSknp, hread]

end

/-- Settles O42: an index that names a key reads the level of that key. -/
theorem keySkipsTestTheLevel : Obligations.KeySkipsTestTheLevel := by
  intro x s h
  have hread := s.keyReading_inRange (s.reg x) h
  exact ⟨answersSkip_skp hread Iff.rfl, answersSkip_sknp hread Iff.rfl⟩

/-- Settles O43: above 15 the policy says what the latch reads: nothing, the key of the low four bits, or a key not held. -/
theorem keyIndexAboveFifteen : Obligations.KeyIndexAboveFifteen := by
  intro x s h
  have hread := s.keyReading_outOfRange (s.reg x) h
  refine ⟨fun hpolicy => ?fault, fun hpolicy k hk => ?mask4, fun hpolicy => ?notPressed⟩
  case fault =>
    rw [hpolicy] at hread
    exact ⟨⟨_, exec_skp_faults hread, s.raise_faultEntered _ _⟩, ⟨_, exec_sknp_faults hread, s.raise_faultEntered _ _⟩⟩
  case mask4 =>
    obtain rfl : k = Fin.ofNat 16 (s.reg x).toNat := Fin.ext hk
    rw [hpolicy] at hread
    exact ⟨answersSkip_skp hread Iff.rfl, answersSkip_sknp hread Iff.rfl⟩
  case notPressed =>
    rw [hpolicy] at hread
    exact ⟨answersSkip_skp hread (by simp), answersSkip_sknp hread (by simp)⟩

/-! The timers (R132, R135, R136). -/

/-- Settles O44: each meaning is one write, of a register or of a timer. -/
theorem timerTransfers : Obligations.TimerTransfers := fun x s =>
  ⟨⟨_, rfl, s.reg_setReg_same x s.dt, s.setReg_frame x s.dt⟩, ⟨_, rfl, rfl, s.setDt_frame _⟩, ⟨_, rfl, rfl, s.setSt_frame _⟩⟩

end Sys2Proof.Machine
end

section
/-! What the other agents leave behind (60_exceptions.md R147, R151, R153): the counters of a `Tick`, the frame of a `Snapshot`,
and that nothing reads the outputs. The last is one equation: earlier outputs put in front of a state's own are in front of
its step's too, and change nothing else. -/

namespace Sys2Proof.Machine

/-! The timer's step and the display's (R147, R151). -/

theorem countDown_toNat (t : Byte) : (countDown t).toNat = t.toNat - 1 := by
  unfold countDown
  split <;> bv_omega

/-- Settles O46: the step is `State.tick`, which touches the two counters, on the state whose schedule has lost its head. -/
theorem tickCountsBothTimersDown : Obligations.TickCountsBothTimersDown := by
  intro s rest h
  have hschedule : s.unscheduled.tick.schedule = rest := congrArg List.tail h
  refine ⟨_, step_of_nextMove s .tick (nextMove_of_schedule s .tick rest h), countDown_toNat s.dt, countDown_toNat s.st,
    hschedule, ?_⟩
  exact (s.unscheduled_frame.mono fun _ => .inr ∘ .inr).trans
    (s.unscheduled.tick_frame.mono fun _ => Or.imp_right .inl)

/-- Settles O48: the step is `State.snapshot`, which touches the outputs alone, on the state whose schedule has lost its head. -/
theorem snapshotCopiesTheGrid : Obligations.SnapshotCopiesTheGrid := by
  intro s rest h
  have hschedule : s.unscheduled.snapshot.schedule = rest := congrArg List.tail h
  refine ⟨_, step_of_nextMove s .snapshot (nextMove_of_schedule s .snapshot rest h), rfl, hschedule, ?_⟩
  exact (s.unscheduled_frame.mono fun _ => .inr).trans ((s.unscheduled.setOutputs_frame _).mono fun _ => .inl)

/-! Earlier outputs, under the updates of a state. -/

/-- The state with earlier outputs in front of its own. -/
def State.withEarlier (s : State) (o : List Output) : State := { s with outputs := o ++ s.outputs }

/-- The answer with earlier outputs in front of those of its next state. -/
def Result.withEarlier (o : List Output) : Result → Result
  | .next t => .next (t.withEarlier o)
  | .fault f => .fault f
  | .refused r => .refused r

theorem Result.eq_fault_of_withEarlier {o : List Output} {r : Result} {f : Fault} (h : Result.withEarlier o r = .fault f) :
    r = .fault f := by
  cases r <;> cases h
  rfl

theorem Result.eq_next_of_withEarlier {o : List Output} {r : Result} {t : State} (h : Result.withEarlier o r = .next t) :
    ∃ u, r = .next u ∧ t = u.withEarlier o := by
  cases r <;> cases h
  exact ⟨_, rfl, rfl⟩

section
variable (s : State) (o : List Output)

@[simp] theorem State.withEarlier_pc : (s.withEarlier o).pc = s.pc := rfl
@[simp] theorem State.withEarlier_keyFlag : (s.withEarlier o).keyFlag = s.keyFlag := rfl
@[simp] theorem State.withEarlier_status : (s.withEarlier o).status = s.status := rfl
@[simp] theorem State.withEarlier_boot : (s.withEarlier o).boot = s.boot := rfl
@[simp] theorem State.withEarlier_cfg : (s.withEarlier o).cfg = s.cfg := rfl
@[simp] theorem State.withEarlier_lowestHeld : (s.withEarlier o).lowestHeld = s.lowestHeld := rfl
@[simp] theorem State.withEarlier_checkReads (addrs : List Nat) :
    (s.withEarlier o).checkReads addrs = s.checkReads addrs := rfl
@[simp] theorem State.withEarlier_checkWrites (addrs : List Nat) :
    (s.withEarlier o).checkWrites addrs = s.checkWrites addrs := rfl
@[simp] theorem State.withEarlier_keyReading (x : Reg) :
    (s.withEarlier o).keyReading ((s.withEarlier o).reg x) = s.keyReading (s.reg x) := rfl

/-- One more output comes after the earlier ones, whichever are put in front first. -/
theorem State.withEarlier_emit (out : Output) :
    ({ s.withEarlier o with outputs := (s.withEarlier o).outputs ++ [out] } : State) =
      ({ s with outputs := s.outputs ++ [out] } : State).withEarlier o :=
  congrArg (fun outs => { s with outputs := outs }) (List.append_assoc o s.outputs [out])

theorem State.withEarlier_signalUnknown (w : Word) :
    (s.withEarlier o).signalUnknown w = (s.signalUnknown w).withEarlier o := by
  unfold State.signalUnknown
  rw [State.withEarlier_cfg]
  split
  · exact s.withEarlier_emit o (.unknownOpcode s.instrAddr w)
  · rfl

theorem State.withEarlier_skipIf (b : Bool) : (s.withEarlier o).skipIf b = (s.skipIf b).withEarlier o := by
  cases b <;> rfl

theorem State.withEarlier_writeSampled (x : Reg) (flag : Bool) (result : Byte) :
    (s.withEarlier o).writeSampled x flag result = (s.writeSampled x flag result).withEarlier o := by
  unfold State.writeSampled
  rw [State.withEarlier_cfg]
  cases s.cfg.vfOperand <;> rfl

theorem State.withEarlier_flagAndResult (x y : Reg) (f : Byte → Byte → Bool) (r : Byte → Byte → Byte) :
    (s.withEarlier o).flagAndResult x y f r = (s.flagAndResult x y f r).withEarlier o := by
  unfold State.flagAndResult
  rw [State.withEarlier_cfg]
  cases s.cfg.vfOperand with
  | sampleFlagResult | flagLast => exact s.withEarlier_writeSampled o x _ _
  | sequentialText => rfl

theorem State.withEarlier_completeWait (x : Reg) :
    (s.withEarlier o).completeWait x = (s.completeWait x).withEarlier o := by
  unfold State.completeWait State.keyDelivered
  rw [State.withEarlier_lowestHeld]
  cases s.lowestHeld <;> rfl

end

theorem State.withEarlier_storeBytes (s : State) (o : List Output) (base : Nat) (bytes : List Byte) :
    (s.withEarlier o).storeBytes base bytes = (s.storeBytes base bytes).withEarlier o := by
  induction bytes generalizing s base with
  | nil => rfl
  | cons b bs ih => exact ih (s.writeByte base b) (base + 1)

theorem State.withEarlier_copyImage (s : State) (o : List Output) (base : Nat) (image : List Byte) :
    (s.withEarlier o).copyImage base image = (s.copyImage base image).withEarlier o := by
  induction image generalizing s base with
  | nil => rfl
  | cons b bs ih =>
    rw [State.copyImage, State.copyImage, State.withEarlier_cfg]
    split
    · exact ih (s.writeByte base b) (base + 1)
    · rfl

/-! Earlier outputs, under a step. -/

section
variable (s : State) (o : List Output)

theorem State.withEarlier_afterReads (addrs : List Nat) (done : State) :
    (s.withEarlier o).afterReads addrs (done.withEarlier o) = Result.withEarlier o (s.afterReads addrs done) := by
  unfold State.afterReads
  rw [State.withEarlier_checkReads]
  cases s.checkReads addrs <;> rfl

theorem State.withEarlier_afterWrites (addrs : List Nat) (done : State) :
    (s.withEarlier o).afterWrites addrs (done.withEarlier o) = Result.withEarlier o (s.afterWrites addrs done) := by
  unfold State.afterWrites
  rw [State.withEarlier_checkWrites]
  cases s.checkWrites addrs <;> rfl

theorem execRet_withEarlier : execRet (s.withEarlier o) = Result.withEarlier o (execRet s) := by
  unfold execRet
  obtain hsp | hsp := Nat.eq_zero_or_pos s.sp.val
  · rw [s.pop_empty hsp, (s.withEarlier o).pop_empty hsp]; rfl
  · rw [s.pop_eq hsp, (s.withEarlier o).pop_eq hsp]; rfl

theorem execCall_withEarlier (nnn : Addr) :
    execCall nnn (s.withEarlier o) = Result.withEarlier o (execCall nnn s) := by
  unfold execCall
  by_cases hsp : s.sp.val < 16
  · rw [s.push_eq hsp, (s.withEarlier o).push_eq hsp]; rfl
  · have hfull : s.sp.val = 16 := by omega
    rw [s.push_full hfull, (s.withEarlier o).push_full hfull]; rfl

/-- No instruction reads the outputs; an unknown word appends to them (R153). -/
theorem exec_withEarlier (i : Instr) : exec i (s.withEarlier o) = Result.withEarlier o (exec i s) := by
  cases i with
  | ret => exact execRet_withEarlier s o
  | call nnn => exact execCall_withEarlier s o nnn
  | seImm | sneImm | seReg | sneReg => exact congrArg Host.Outcome.next (s.withEarlier_skipIf o _)
  | skp x | sknp x =>
    simp only [exec, execSkp, execSknp, State.withEarlier_keyReading]
    cases s.keyReading (s.reg x) with
    | none => rfl
    | some => exact congrArg Host.Outcome.next (s.withEarlier_skipIf o _)
  | addReg x => exact congrArg Host.Outcome.next (s.withEarlier_writeSampled o x _ _)
  | subReg x y | shr x y | subnReg x y | shl x y =>
    exact congrArg Host.Outcome.next (s.withEarlier_flagAndResult o x y _ _)
  | drw x y n => exact s.withEarlier_afterReads o _ (s.drawn x y n)
  | ldVxMem x => exact s.withEarlier_afterReads o _ (s.loadBlock x s.i.toNat)
  | ldB x =>
    simp only [exec, execLdB, State.withEarlier_storeBytes]
    exact s.withEarlier_afterWrites o _ _
  | ldMemVx x =>
    simp only [exec, execLdMemVx, State.withEarlier_storeBytes]
    exact s.withEarlier_afterWrites o _ _
  | unknown w => exact congrArg Host.Outcome.next (s.withEarlier_signalUnknown o w)
  | cls | jp | jpV0 | ldImm | addImm | ldReg | orReg | andReg | xorReg | ldI | rnd | ldVxDt | ldVxK | ldDtVx | ldStVx | addI
  | ldF => rfl

theorem runningStep_withEarlier : runningStep (s.withEarlier o) = Result.withEarlier o (runningStep s) := by
  unfold runningStep
  rw [State.withEarlier_cfg, State.withEarlier_pc]
  split
  · rfl
  · split
    · rfl
    · exact exec_withEarlier s.advanced o (decodeWord s.fetchWord)

theorem cpuStep_withEarlier : cpuStep (s.withEarlier o) = Result.withEarlier o (cpuStep s) := by
  unfold cpuStep
  rw [State.withEarlier_status, State.withEarlier_keyFlag]
  cases s.status with
  | running => exact runningStep_withEarlier s.begun o
  | waitKey x =>
    cases s.keyFlag
    · rfl
    · exact congrArg Host.Outcome.next (s.begun.withEarlier_completeWait o x)
  | halted | faulted => rfl

theorem State.withEarlier_load (image : List Byte) :
    (s.withEarlier o).load image = Result.withEarlier o (s.load image) := by
  unfold State.load
  rw [State.withEarlier_boot, State.withEarlier_copyImage]
  cases s.boot <;> rfl

theorem moveStep_withEarlier (m : Move) : moveStep m (s.withEarlier o) = Result.withEarlier o (moveStep m s) := by
  cases m with
  | cpu => exact cpuStep_withEarlier s o
  | load image => exact s.withEarlier_load o image
  | snapshot => exact congrArg Host.Outcome.next (s.withEarlier_emit o (.frame s.fb))
  | tick | press | release | reset => rfl

/-- Earlier outputs change no step of any agent, but for standing in front of the outputs of its next state. -/
theorem step_withEarlier : step (s.withEarlier o) = Result.withEarlier o (step s) :=
  moveStep_withEarlier s.unscheduled o s.nextMove

/-- A step from a given list of outputs is the step from none, with the list in front of what it puts out. -/
theorem step_setOutputs :
    step { s with outputs := o } = Result.withEarlier o (step { s with outputs := [] }) := by
  rw [← step_withEarlier, State.withEarlier, List.append_nil]

end

/-- Settles O60: both steps are the step from no outputs at all, which says how they stop, or what they put out. -/
theorem outputsAreNeverRead : Obligations.OutputsAreNeverRead := by
  intro s o
  have hs : step s = Result.withEarlier s.outputs (step { s with outputs := [] }) := step_setOutputs s s.outputs
  have ho := step_setOutputs s o
  refine ⟨fun f hf => ?_, fun t ht => ?_⟩
  · have hstop := Result.eq_fault_of_withEarlier (hs.symm.trans hf)
    exact ho.trans (congrArg (Result.withEarlier o) hstop)
  · obtain ⟨u, hnext, rfl⟩ := Result.eq_next_of_withEarlier (hs.symm.trans ht)
    exact ⟨u.outputs, rfl, ho.trans (congrArg (Result.withEarlier o) hnext)⟩

end Sys2Proof.Machine
end

section
/-! What a `Load` leaves behind (70_reset_and_hazards.md R172, R173): the image from `0x200` on as far as memory reaches, and
every other cell and part as it was. -/

namespace Sys2Proof.Machine

/-- The cell `j` places into a copied image reads as the image's byte `j`, where the cell exists. -/
theorem State.readByte_copyImage_add (s : State) (base : Nat) (image : List Byte) (j : Nat) (hj : j < image.length)
    (hfit : base + j < s.cfg.memSize) : (s.copyImage base image).readByte (base + j) = image[j] := by
  have hin : base ≤ base + j ∧ base + j - base < image.length ∧ base + j < s.cfg.memSize := by omega
  rw [State.readByte_copyImage, dif_pos hin]
  simp only [Nat.add_sub_cancel_left]

/-- Copying an image changes no cell but those inside memory that a byte of the image falls on (R173). -/
theorem State.copyImage_frame (s : State) (base : Nat) (image : List Byte) :
    Unchanged (fun p => ∃ j, j < image.length ∧ base + j < s.cfg.memSize ∧ p = .byte (base + j)) s
      (s.copyImage base image) := by
  intro p hp
  cases p with
  | byte a =>
    have hout : ¬ (base ≤ a ∧ a - base < image.length ∧ a < s.cfg.memSize) := by
      rintro ⟨hbase, hj, hfit⟩
      have ha : base + (a - base) = a := Nat.add_sub_cancel' hbase
      exact hp ⟨a - base, hj, ha.symm ▸ hfit, congrArg Part.byte ha.symm⟩
    rw [Part.same, State.readByte_copyImage, dif_neg hout]
  | _ => simp [Part.same]

theorem State.setBoot_frame (s : State) (b : Boot) : Unchanged (· = .boot) s { s with boot := b } := fun p hp => by
  cases p with
  | boot => exact absurd rfl hp
  | _ => rfl

/-- Settles O49: the step copies the image and ends the boot phase, on the state whose schedule has lost its head. -/
theorem loadCopiesTheImage : Obligations.LoadCopiesTheImage := by
  intro s image rest h hboot
  have hload := State.load_fresh (s := s.unscheduled) (image := image) hboot
  refine ⟨_, (step_of_nextMove s _ (nextMove_of_schedule s _ rest h)).trans hload, fun j hfit hj => ?_, ?_⟩
  · exact s.unscheduled.readByte_copyImage_add Config.progBase image j hj hfit
  · have hcopy := s.unscheduled.copyImage_frame Config.progBase image
    have hphase := (s.unscheduled.copyImage Config.progBase image).setBoot_frame .loaded
    exact ((s.unscheduled_frame.mono fun _ => .inr ∘ .inl).trans (hcopy.mono fun _ => .inr ∘ .inr)).trans
      (hphase.mono fun _ => .inl)

end Sys2Proof.Machine
end
